-- ==== Sys2Proof/Word.lean ====
section
/-! DEFINITION. The widths the spec names (00_scope.md R10, R13): bytes, `u32` words and `u64` words.
Arithmetic on them is BitVec's own: `+` wraps modulo two to the width (41_schedule.md R134). -/

namespace Sys2Proof

/-- A byte, `u8` (R13). -/
abbrev Byte := BitVec 8

/-- A 32-bit word, `u32` (R10, R13). -/
abbrev Word := BitVec 32

/-- A 64-bit word, `u64` (R13). -/
abbrev DWord := BitVec 64

end Sys2Proof
end

