-- ==== Sys2Proof/Machine/State.lean ====
section
/-! DEFINITION. The state of the machine: every register of 10_state.md, the block buffer, the word on port CMD, and
the model's own record of what the host does next. Plain data throughout. -/

namespace Sys2Proof.Machine

/-- The status register ST (10_state.md R29). All four codes are legal. -/
inductive Status where
  | idle | absorb | done | fault
deriving DecidableEq, Repr

/-- The fault cause register CAUSE (R30). Codes 5, 6, 7 are never produced and are not among the values. -/
inductive Cause where
  | none | lenMismatch | lenOverflow | badCommand | badPhase
deriving DecidableEq, Repr

/-- The padder phase PP (R34). All four codes are legal. -/
inductive PadPhase where
  | msg | mark | zeros | length
deriving DecidableEq, Repr

/-- The block-engine phase PH, one value per code of the 3-bit register (R36). Codes 6 and 7 are never produced; a step
asked about one refuses (30_encoding.md R79). -/
inductive BlockPhase where
  | fill | loadw | expand | loadv | rounds | feed | code6 | code7
deriving DecidableEq, Repr

/-- What the host can do between two commands: raise RST (70_reset_and_hazards.md R220) or present a word on CMD
(30_encoding.md R72). -/
inductive HostEvent where
  | rst
  | command (w : BitVec 72)
deriving DecidableEq, Repr

/-- The block buffer as a list of (index, byte), indexes strictly rising. A byte that nothing has written since reset is
not listed and holds no value (10_state.md R44; assumption 6). -/
abbrev Memory := List Host.Cell

/-- The eight words of `H` or `V` (R20, R21). -/
abbrev Words8 := Vector Word 8

/-- The 64 words of `W` (R22). -/
abbrev Words64 := Vector Word 64

/-- The machine's state. INVENTORY.md lists each field with its rule and its reset value. -/
structure State where
  /-- H[0..7], the digest state (R20). -/
  h : Words8
  /-- V[0..7], the working variables a..h (R21). -/
  v : Words8
  /-- W[0..63], the message schedule (R22). -/
  w : Words64
  /-- B[0..63], the block buffer (R25). -/
  buf : Memory
  /-- DLEN, the declared bit length (R26). -/
  dlen : DWord
  /-- CNT, the message bytes accepted (R27). -/
  cnt : DWord
  /-- NBLK, the blocks compressed (R28). -/
  nblk : DWord
  /-- ST (R29). -/
  st : Status
  /-- CAUSE (R30). -/
  cause : Cause
  /-- OFF, the fill offset (R33). -/
  off : BitVec 6
  /-- PP (R34). -/
  pp : PadPhase
  /-- LI (R35). -/
  li : BitVec 3
  /-- PH (R36). -/
  ph : BlockPhase
  /-- T (R37). -/
  t : BitVec 6
  /-- The word on port CMD: of the transaction under way, or of the last one (R32; assumption 3). -/
  cmd : BitVec 72
  /-- The model's own: the DATA command on CMD is under way and its PUSHM has not run (R111; assumption 4). -/
  busy : Bool
  /-- The model's own: what the host does next, first event first (00_scope.md R18; assumption 2). -/
  host : List HostEvent
deriving DecidableEq, Repr

/-- Why the machine stops with a fault of the MODEL. The hardware's own PreconditionViolation is a next state with
`st = fault` (60_exceptions.md R196) and none of these. -/
inductive Fault where
  /-- Raised by LDW, and by a PUSH that runs BLK, when a byte of B is read that nothing has written since reset (R44;
  93_implementation_defined.md U12). Safe: the hardware goes on with an unspecified byte. -/
  | bufferByteUnwritten
  /-- Raised by `memRead` and `memWrite` for bytes outside B[0..63] (00_scope.md R16). No instruction reaches it
  (20_memory.md R59). Safe. -/
  | bufferIndexOutOfRange
deriving DecidableEq, Repr

/-- Why the machine refuses. -/
inductive Refusal where
  /-- An instruction without a meaning; no arm of `exec` answers it. Safe. -/
  | notModelled (mnemonic : String)
  /-- Raised by `step` at a sequencer code of 30_encoding.md R79, and by LDW and EXP with an index outside their range.
  "A model gives them no meaning: a step function asked about one should refuse." Safe. -/
  | sequencerCodeNeverProduced
deriving DecidableEq, Repr

/-- The three outcomes of a step of this machine. -/
abbrev Result := Host.Outcome State Fault Refusal

/-- The machine right after RST (R43), with nothing listed for the host to do. `h`, `v`, `w` are unspecified there; the
zeros are the model's choice (assumption 5). `buf` lists nothing (assumption 6); `cmd`, `busy` and `host` are those of
assumptions 2, 3, 4. -/
def State.reset : State where
  h := Vector.replicate 8 0#32
  v := Vector.replicate 8 0#32
  w := Vector.replicate 64 0#32
  buf := []
  dlen := 0#64
  cnt := 0#64
  nblk := 0#64
  st := .idle
  cause := .none
  off := 0#6
  pp := .msg
  li := 0#3
  ph := .fill
  t := 0#6
  cmd := 0#72
  busy := false
  host := []

end Sys2Proof.Machine
end

