-- ==== Sys2Proof/Config.lean ====
section
/-! DEFINITION. What an implementation fixes. The spec leaves ONE parameter open, INIT_STATE (00_scope.md R11), and gives its
value for this hardware. It leaves no result of an executing instruction undefined, so there is no free value. -/

namespace Sys2Proof

/-- INIT_STATE, the words START loads into H: "This hardware computes standalone digests, so `INIT_STATE = IV`" (R11;
assumption 8). -/
def Config.initState : Machine.Words8 := Machine.IV

end Sys2Proof
end

