-- ==== Sys2Proof/Machine/Ops.lean ====
section
/-! DEFINITION. The named operations over the block buffer and the registers, reset, and fault entry. Every meaning reads
and writes the state through these. -/

namespace Sys2Proof.Machine

/-! ## The block buffer -/

/-- The canonical form: indexes strictly rising and all inside B[0..63] (20_memory.md R50). An unlisted byte has no value,
so no listed byte can equal it. -/
def Memory.wf : Memory → Bool
  | [] => true
  | [(a, _)] => decide (a < 64)
  | (a, _) :: (a', b') :: rest => decide (a < a') && Memory.wf ((a', b') :: rest)

/-- The byte at index `a`, or none where nothing has written it since reset (10_state.md R44). -/
def Memory.read (m : Memory) (a : Nat) : Option Byte := m.lookup a

/-- Put byte `x` at index `a`, keeping the indexes rising. -/
def Memory.write : Memory → Nat → Byte → Memory
  | [], a, x => [(a, x)]
  | (k, y) :: rest, a, x =>
    if a < k then (a, x) :: (k, y) :: rest
    else if a = k then (a, x) :: rest
    else (k, y) :: Memory.write rest a x

/-- The bytes at `a`, `a + 1`, and so on, as many as asked, or none where one of them was never written. -/
def Memory.readMany (m : Memory) : Nat → Nat → Option (List Byte)
  | _, 0 => some []
  | a, n + 1 =>
    match m.read a, m.readMany (a + 1) n with
    | some x, some xs => some (x :: xs)
    | _, _ => none

/-- Put the bytes `xs` at `a`, `a + 1`, and so on. -/
def Memory.writeMany : Memory → Nat → List Byte → Memory
  | m, _, [] => m
  | m, a, x :: xs => Memory.writeMany (m.write a x) (a + 1) xs

/-- `MemRead(addr, n)` of 00_scope.md R16, with its condition `addr + n <= 64`. -/
def memRead (m : Memory) (addr n : Nat) : Except Fault (List Byte) :=
  if addr + n ≤ 64 then
    match m.readMany addr n with
    | some bytes => .ok bytes
    | none => .error .bufferByteUnwritten
  else .error .bufferIndexOutOfRange

/-- `MemWrite(addr, n, v)` of R16, `n` being the length of `v`. -/
def memWrite (m : Memory) (addr : Nat) (v : List Byte) : Except Fault Memory :=
  if addr + v.length ≤ 64 then .ok (m.writeMany addr v) else .error .bufferIndexOutOfRange

/-! ## Sequencing -/

/-- Go on with `f` from the next state; a stop stays a stop. -/
def andThen (r : Result) (f : State → Result) : Result :=
  match r with
  | .next s => f s
  | .fault e => .fault e
  | .refused e => .refused e

/-! ## Words of the schedule -/

/-- `w[T]`. -/
def getWord (w : Words64) (t : BitVec 6) : Word := w[t.toNat]'t.isLt

/-- `w` with `x` at `T`. -/
def setWord (w : Words64) (t : BitVec 6) (x : Word) : Words64 := w.set t.toNat x t.isLt

/-! ## Named updates of the registers -/

/-- `V <- x`. -/
def State.setV (s : State) (x : Words8) : State := { s with v := x }

/-- `H <- x`. -/
def State.setH (s : State) (x : Words8) : State := { s with h := x }

/-- `W[T]`. -/
def State.readW (s : State) (t : BitVec 6) : Word := getWord s.w t

/-- `W[T] <- x`. -/
def State.writeW (s : State) (t : BitVec 6) (x : Word) : State := { s with w := setWord s.w t x }

/-- `B <- m`. -/
def State.setBuf (s : State) (m : Memory) : State := { s with buf := m }

/-- `OFF <- o`. -/
def State.setOff (s : State) (o : BitVec 6) : State := { s with off := o }

/-- The block engine at phase `p` and index `x`. -/
def State.engineAt (s : State) (p : BlockPhase) (x : BitVec 6) : State := { s with ph := p, t := x }

/-- The padder at phase `p` and length-byte index `x`. -/
def State.padderAt (s : State) (p : PadPhase) (x : BitVec 3) : State := { s with pp := p, li := x }

/-- `CNT <- CNT + 1` (40_padder.md R106). -/
def State.countByte (s : State) : State := { s with cnt := s.cnt + 1#64 }

/-- `NBLK <- NBLK + 1` (42_compression.md R163). -/
def State.countBlock (s : State) : State := { s with nblk := s.nblk + 1#64 }

/-- `ST <- DONE` (40_padder.md R108). -/
def State.finish (s : State) : State := { s with st := .done }

/-- Whether a DATA command is under way. -/
def State.setBusy (s : State) (x : Bool) : State := { s with busy := x }

/-- `DLEN <- LEN; CNT <- 0; OFF <- 0; NBLK <- 0; ST <- ABSORB` and `H <- init`, the body of START (R105). -/
def State.openMessage (s : State) (init : Words8) (len : DWord) : State :=
  { s with h := init, dlen := len, cnt := 0#64, off := 0#6, nblk := 0#64, st := .absorb }

/-- The host presents `word` on CMD, and `rest` is what it does afterwards. -/
def State.accept (s : State) (word : BitVec 72) (rest : List HostEvent) : State := { s with cmd := word, host := rest }

/-! ## Fault entry and reset -/

/-- Fault entry (60_exceptions.md R196): `ST <- FAULT; CAUSE <- c`, and nothing else. -/
def State.enterFault (s : State) (c : Cause) : State := { s with st := .fault, cause := c }

/-- `raise PreconditionViolation(c)`: fault entry ends the command (R196). There is no return from it; only RST leaves
FAULT (R198). -/
def raise (c : Cause) (s : State) : Result := .next (s.enterFault c)

/-- RST (70_reset_and_hazards.md R220), the host going on with `rest`: every register as in `State.reset` (assumption 5 for
the ones the spec leaves unspecified); the word on the input port CMD stays (assumption 3). -/
def State.rst (s : State) (rest : List HostEvent) : State := { State.reset with cmd := s.cmd, host := rest }

/-- The sequencer is quiescent (10_state.md R38): `PP = MSG; LI = 0; PH = FILL; T = 0`. -/
abbrev State.quiescent (s : State) : Prop := s.pp = .msg ∧ s.li = 0#3 ∧ s.ph = .fill ∧ s.t = 0#6

end Sys2Proof.Machine
end

