-- ==== Sys2Proof/Machine/Flags.lean ====
section
/-! DEFINITION. The status flags. There are no condition codes (10_state.md R31); the only flags are ST and CAUSE, whose
codes stand here, and the phase check every command makes on ST (60_exceptions.md R195, R199). -/

namespace Sys2Proof.Machine

/-- The 2-bit code of ST (R29). -/
def Status.code : Status → BitVec 2
  | .idle => 0#2
  | .absorb => 1#2
  | .done => 2#2
  | .fault => 3#2

/-- The 3-bit code of CAUSE (R30). -/
def Cause.code : Cause → BitVec 3
  | .none => 0#3
  | .lenMismatch => 1#3
  | .lenOverflow => 2#3
  | .badCommand => 3#3
  | .badPhase => 4#3

/-- START executes in IDLE and DONE (R195). -/
def admitsStart : Status → Bool
  | .idle => true
  | .absorb => false
  | .done => true
  | .fault => false

/-- DATA and LAST execute in ABSORB (R195). -/
def admitsByte : Status → Bool
  | .idle => false
  | .absorb => true
  | .done => false
  | .fault => false

/-- The phase check, in the order of R199: in FAULT the command is ignored; in a status that does not admit it, BAD_PHASE;
otherwise the command's own body. -/
def inPhase (admits : Status → Bool) (s : State) (body : State → Result) : Result :=
  if s.st = .fault then .next s
  else if admits s.st then body s
  else raise .badPhase s

/-- An illegal word: BAD_COMMAND, or ignored in FAULT (30_encoding.md R75; R194, R199). -/
def illegalCommand (s : State) : Result :=
  if s.st = .fault then .next s else raise .badCommand s

end Sys2Proof.Machine
end

