-- ==== Sys2Proof/Syntax.lean ====
section
/-! DEFINITION. The instructions: one constructor per row of spec/opcode_table.json, and the three formats their
words come in (30_encoding.md R70, R76). -/

namespace Sys2Proof

/-- The three host commands (R73) and the nine micro-operations (R77). An operand is the field of the encoding, as
wide as the field; the range the spec gives `T` for LDW and EXP is checked in `Instr.wellFormed`. -/
inductive Instr where
  /-- START LEN: begin a message of LEN bits (40_padder.md R105). -/
  | start (len : DWord)
  /-- DATA BYTE: append one message byte (R106). -/
  | data (byte : Byte)
  /-- LAST: end of message (R107, R108). -/
  | last
  /-- PUSHM: push the byte of the DATA command under way (R111). -/
  | pushm
  /-- PUSH80: push the marker (R112). -/
  | push80
  /-- PUSH00: push a zero byte (R113). -/
  | push00
  /-- PUSHL: push byte LI of the length field (R114). -/
  | pushl (li : BitVec 3)
  /-- LDW: load schedule word T from the buffer (41_schedule.md R136). -/
  | ldw (t : BitVec 6)
  /-- EXP: expand schedule word T (R137). -/
  | exp (t : BitVec 6)
  /-- LDV: load the working variables (42_compression.md R160). -/
  | ldv
  /-- RND: round T (R161). -/
  | rnd (t : BitVec 6)
  /-- ADDH: add the working variables into the digest state (R162). -/
  | addh
deriving DecidableEq, Repr

/-- A word of one of the three formats. Only CMD72 words are sent by anyone (R76). -/
inductive Code where
  /-- CMD72: opcode in bits 71:64, payload in bits 63:0 (R70). -/
  | cmd (w : BitVec 72)
  /-- PSEQ5: `PP` in bits 4:3, `LI` in bits 2:0 (R76). -/
  | pseq (c : BitVec 5)
  /-- USEQ9: `PH` in bits 8:6, `T` in bits 5:0 (R76). -/
  | useq (c : BitVec 9)
deriving DecidableEq, Repr

end Sys2Proof
end

