-- ==== Sys2Proof/WellFormed.lean ====
section
/-! DEFINITION. Which instructions the encoding can express: the condition on the index of 30_encoding.md R77. -/

namespace Sys2Proof

/-- LDW runs at `T` in 0..15, EXP at `T` in 16..63 (R77); the other fields take every value. -/
def Instr.wellFormed : Instr → Bool
  | .start _ => true
  | .data _ => true
  | .last => true
  | .pushm => true
  | .push80 => true
  | .push00 => true
  | .pushl _ => true
  | .ldw t => decide (t.toNat < 16)
  | .exp t => decide (16 ≤ t.toNat)
  | .ldv => true
  | .rnd _ => true
  | .addh => true

end Sys2Proof
end

