-- ==== Sys2Proof/Decode.lean ====
section
/-! DEFINITION. The decoder of 30_encoding.md (R74 for command words, R77 and R79 for sequencer codes), total on any
word and rejecting by name, and after it the encoder, written from the same tables (R73, R77). -/

namespace Sys2Proof

/-- Why a word is no instruction. -/
inductive Reject where
  /-- Opcode 0x00 or 0x04 to 0xFF (R75). -/
  | undefinedOpcode
  /-- Opcode 0x02 with a bit of payload 63:8 set (R75). -/
  | dataReservedBits
  /-- Opcode 0x03 with a payload bit set (R75). -/
  | lastReservedBits
  /-- A sequencer code of the list of R79. -/
  | neverProduced
  /-- A USEQ9 code with PH = FILL: it selects no micro-operation (R77). -/
  | blockEngineIdle
deriving DecidableEq, Repr

/-- Bits 71:64 of a command word (R70). -/
def opcodeOf (w : BitVec 72) : BitVec 8 := w.extractLsb' 64 8

/-- Bits 63:0 of a command word (R70). -/
def payloadOf (w : BitVec 72) : DWord := w.extractLsb' 0 64

/-- Payload bits 63:8, reserved in DATA (R71). -/
def reservedOf (w : BitVec 72) : BitVec 56 := w.extractLsb' 8 56

/-- Payload bits 7:0, the field BYTE of DATA (R71). -/
def byteOf (w : BitVec 72) : Byte := w.extractLsb' 0 8

/-- `Decode(w)` of R74, with the reason where it answers ILLEGAL. -/
def decodeCommand (w : BitVec 72) : Except Reject Instr :=
  if opcodeOf w = 0x01#8 then .ok (.start (payloadOf w))
  else if opcodeOf w = 0x02#8 then
    if reservedOf w = 0#56 then .ok (.data (byteOf w)) else .error .dataReservedBits
  else if opcodeOf w = 0x03#8 then
    if payloadOf w = 0#64 then .ok .last else .error .lastReservedBits
  else .error .undefinedOpcode

/-- Field PP of a PSEQ5 code (R76). -/
def ppField (c : BitVec 5) : BitVec 2 := c.extractLsb' 3 2

/-- Field LI of a PSEQ5 code (R76). -/
def liField (c : BitVec 5) : BitVec 3 := c.extractLsb' 0 3

/-- The PSEQ5 half of the map of R77; `PP != LENGTH` with `LI != 0` is never produced (R79). -/
def decodePadder (c : BitVec 5) : Except Reject Instr :=
  if ppField c = 3#2 then .ok (.pushl (liField c))
  else if liField c ≠ 0#3 then .error .neverProduced
  else if ppField c = 0#2 then .ok .pushm
  else if ppField c = 1#2 then .ok .push80
  else .ok .push00

/-- Field PH of a USEQ9 code (R76). -/
def phField (c : BitVec 9) : BitVec 3 := c.extractLsb' 6 3

/-- Field T of a USEQ9 code (R76). -/
def tField (c : BitVec 9) : BitVec 6 := c.extractLsb' 0 6

/-- The USEQ9 half of the map of R77, with the codes of R79 rejected. -/
def decodeEngine (c : BitVec 9) : Except Reject Instr :=
  if phField c = 0#3 then .error .blockEngineIdle
  else if phField c = 1#3 then
    if (tField c).toNat < 16 then .ok (.ldw (tField c)) else .error .neverProduced
  else if phField c = 2#3 then
    if 16 ≤ (tField c).toNat then .ok (.exp (tField c)) else .error .neverProduced
  else if phField c = 3#3 then
    if tField c = 0#6 then .ok .ldv else .error .neverProduced
  else if phField c = 4#3 then .ok (.rnd (tField c))
  else if phField c = 5#3 then
    if tField c = 0#6 then .ok .addh else .error .neverProduced
  else .error .neverProduced

/-- The decoder, over the three formats. -/
def decode : Code → Except Reject Instr
  | .cmd w => decodeCommand w
  | .pseq c => decodePadder c
  | .useq c => decodeEngine c

/-- The format and word that `nbits` bits hold, `nbits` being the format's width in whole bytes (72 for CMD72, 8 for
PSEQ5, 16 for USEQ9). A format carries only its own bits, so a number too large for it is no word of it. -/
def codeOfTableWord (nbits w : Nat) : Option Code :=
  if nbits = 72 then if w < 2 ^ 72 then some (.cmd (BitVec.ofNat 72 w)) else none
  else if nbits = 8 then if w < 2 ^ 5 then some (.pseq (BitVec.ofNat 5 w)) else none
  else if nbits = 16 then if w < 2 ^ 9 then some (.useq (BitVec.ofNat 9 w)) else none
  else none

/-- The instruction the decoder reads from a word numbered as spec/opcode_table.json numbers it. -/
def decodeTableWord (nbits w : Nat) : Option Instr :=
  match codeOfTableWord nbits w with
  | some c => (decode c).toOption
  | none => none

/-- A command word from its two fields (R70). -/
def commandWord (opcode : BitVec 8) (payload : DWord) : BitVec 72 := opcode ++ payload

/-- The word of START LEN (R73). -/
def startWord (len : DWord) : BitVec 72 := commandWord 0x01#8 len

/-- The word of DATA BYTE, payload bits 63:8 zero (R73). -/
def dataWord (byte : Byte) : BitVec 72 := commandWord 0x02#8 (0#56 ++ byte)

/-- The word of LAST, payload zero (R73). -/
def lastWord : BitVec 72 := commandWord 0x03#8 0#64

/-- A PSEQ5 code from its two fields (R76). -/
def padderCode (pp : BitVec 2) (li : BitVec 3) : BitVec 5 := pp ++ li

/-- A USEQ9 code from its two fields (R76). -/
def engineCode (ph : BitVec 3) (t : BitVec 6) : BitVec 9 := ph ++ t

/-- The encoder: the word of an instruction by the tables of R73 and R77. -/
def encode : Instr → Code
  | .start len => .cmd (startWord len)
  | .data byte => .cmd (dataWord byte)
  | .last => .cmd lastWord
  | .pushm => .pseq (padderCode 0#2 0#3)
  | .push80 => .pseq (padderCode 1#2 0#3)
  | .push00 => .pseq (padderCode 2#2 0#3)
  | .pushl li => .pseq (padderCode 3#2 li)
  | .ldw t => .useq (engineCode 1#3 t)
  | .exp t => .useq (engineCode 2#3 t)
  | .ldv => .useq (engineCode 3#3 0#6)
  | .rnd t => .useq (engineCode 4#3 t)
  | .addh => .useq (engineCode 5#3 0#6)

end Sys2Proof
end

