-- ==== Sys2Proof/Machine/Operands.lean ====
section
/-! DEFINITION. The primitive operations on words (41_schedule.md R130 to R133; 42_compression.md R150 to R153) and the byte
orders (00_scope.md R15; 20_memory.md R55): everything an operand goes through. -/

namespace Sys2Proof.Machine

/-- `rotr(x, n) = ((x >> n) or (x << (32 - n))) mod 2^32` (R130). It is not defined outside `0 < n < 32`, and the argument
`h` keeps every other amount out (assumption 18). -/
def rotr (x : Word) (n : Nat) (_h : 0 < n ∧ n < 32 := by decide) : Word := (x >>> n) ||| (x <<< (32 - n))

/-- The small sigma function of `W[T-15]` (R132). -/
def ssig0 (x : Word) : Word := rotr x 7 ^^^ rotr x 18 ^^^ (x >>> 3)

/-- The small sigma function of `W[T-2]` (R133). -/
def ssig1 (x : Word) : Word := rotr x 17 ^^^ rotr x 19 ^^^ (x >>> 10)

/-- The big sigma function of `a` (R150). -/
def bsig0 (x : Word) : Word := rotr x 2 ^^^ rotr x 13 ^^^ rotr x 22

/-- The big sigma function of `e` (R151). -/
def bsig1 (x : Word) : Word := rotr x 6 ^^^ rotr x 11 ^^^ rotr x 25

/-- `Ch(x, y, z)` (R152). -/
def ch (x y z : Word) : Word := (x &&& y) ^^^ (~~~x &&& z)

/-- `Maj(x, y, z)` (R153). -/
def maj (x y z : Word) : Word := (x &&& y) ^^^ (x &&& z) ^^^ (y &&& z)

/-- `BE32(b0, b1, b2, b3)`, `b0` the most significant (R15). -/
def be32 (b0 b1 b2 b3 : Byte) : Word :=
  (b0.setWidth 32 <<< 24) ||| (b1.setWidth 32 <<< 16) ||| (b2.setWidth 32 <<< 8) ||| b3.setWidth 32

/-- `BE32(bytes[0], bytes[1], bytes[2], bytes[3])` of the four bytes a `MemRead` answers (41_schedule.md R136). -/
def be32OfBytes (bytes : List Byte) : Word :=
  be32 (bytes.getD 0 0#8) (bytes.getD 1 0#8) (bytes.getD 2 0#8) (bytes.getD 3 0#8)

/-- `L[63-8j : 56-8j]`: byte `j` of `BE64bytes(L)` (R15), and the byte PUSHL pushes at `LI = j` (40_padder.md R114). -/
def lengthByte (l : DWord) (j : Nat) : Byte := l.extractLsb' (56 - 8 * j) 8

/-- `BE64bytes(L)`, most significant byte first (R15). -/
def be64bytes (l : DWord) : List Byte := (List.range 8).map (lengthByte l)

/-- `BE32bytes(w)`: byte `j` is `w[31-8j : 24-8j]` (R15). -/
def be32bytes (x : Word) : List Byte := (List.range 4).map fun j => x.extractLsb' (24 - 8 * j) 8

/-- `W[t-16] + ssig0(W[t-15]) + W[t-7] + ssig1(W[t-2])` (R137), for `t` in 16..63. -/
def expandedWord (w : Words64) (t : BitVec 6) : Word :=
  getWord w (t - 16#6) + ssig0 (getWord w (t - 15#6)) + getWord w (t - 7#6) + ssig1 (getWord w (t - 2#6))

/-- The update of one round (R161): the working variables after it, from those before it, `K[T]` and `W[T]`. -/
def round (v : Words8) (k x : Word) : Words8 :=
  let temp1 := v[7] + bsig1 v[4] + ch v[4] v[5] v[6] + k + x
  let temp2 := bsig0 v[0] + maj v[0] v[1] v[2]
  #v[temp1 + temp2, v[0], v[1], v[2], v[3] + temp1, v[4], v[5], v[6]]

/-- `s[i] + v[i]` for `i` in 0..7, modulo 2^32 (R162). -/
def addWords (s v : Words8) : Words8 := Vector.ofFn fun i => s[i] + v[i]

end Sys2Proof.Machine
end

