-- ==== Sys2Proof/Machine/Schedule.lean ====
section
/-! DEFINITION. The Schedule Expander's micro-operations LDW and EXP (41_schedule.md R136, R137). -/

namespace Sys2Proof.Machine

/-- LDW at index `t` (R136): `W[T] <- BE32` of the four bytes at `4*T`. Its index is in 0..15; any other code is never
produced (30_encoding.md R79). -/
def execLdw (t : BitVec 6) (s : State) : Result :=
  if t.toNat < 16 then
    match memRead s.buf (4 * t.toNat) 4 with
    | .ok bytes => .next (s.writeW t (be32OfBytes bytes))
    | .error e => .fault e
  else .refused .sequencerCodeNeverProduced

/-- EXP at index `t` (R137). Its index is in 16..63; any other code is never produced (R79). -/
def execExp (t : BitVec 6) (s : State) : Result :=
  if 16 ≤ t.toNat then .next (s.writeW t (expandedWord s.w t))
  else .refused .sequencerCodeNeverProduced

end Sys2Proof.Machine
end

