-- ==== Sys2Proof/Machine/Compression.lean ====
section
/-! DEFINITION. The Compression Engine's micro-operations LDV, RND and ADDH (42_compression.md R160 to R162) and the block
sequence BLK (R163). -/

namespace Sys2Proof.Machine

/-- LDV (R160): `V[i] <- H[i]`. -/
def execLdv (s : State) : Result := .next (s.setV s.h)

/-- RND at index `t` (R161). -/
def execRnd (t : BitVec 6) (s : State) : Result := .next (s.setV (round s.v (readK t) (s.readW t)))

/-- ADDH (R162): `H[i] <- H[i] + V[i]`. -/
def execAddh (s : State) : Result := .next (s.setH (addWords s.h s.v))

/-- `for T <- ts: op`, in phase `p`: each turn sets T and runs the micro-operation at it (R163). -/
def overT (p : BlockPhase) (op : BitVec 6 → State → Result) : List Nat → State → Result
  | [], s => .next s
  | t :: ts, s => andThen (op (BitVec.ofNat 6 t) (s.engineAt p (BitVec.ofNat 6 t))) (overT p op ts)

/-- BLK (R163): 16 LDW, 48 EXP, LDV, 64 RND, ADDH, then `NBLK <- NBLK + 1; PH <- FILL; T <- 0`. -/
def blk (s : State) : Result :=
  andThen (overT .loadw execLdw (List.range' 0 16) s) fun s =>
  andThen (overT .expand execExp (List.range' 16 48) s) fun s =>
  andThen (execLdv (s.engineAt .loadv 0#6)) fun s =>
  andThen (overT .rounds execRnd (List.range' 0 64) s) fun s =>
  andThen (execAddh (s.engineAt .feed 0#6)) fun s =>
  .next (s.countBlock.engineAt .fill 0#6)

end Sys2Proof.Machine
end

