-- ==== Sys2Proof/Machine/Padder.lean ====
section
/-! DEFINITION. The Padder's micro-operations: PUSH (40_padder.md R110) and the four that use it (R111 to R114). -/

namespace Sys2Proof.Machine

/-- `PUSH(x)` (R110): `B[OFF] <- x`; at `OFF = 63` the offset returns to 0 and BLK runs, otherwise it goes up by one. -/
def push (x : Byte) (s : State) : Result :=
  match memWrite s.buf s.off.toNat [x] with
  | .error e => .fault e
  | .ok m =>
    if s.off = 63#6 then blk ((s.setBuf m).setOff 0#6)
    else .next ((s.setBuf m).setOff (s.off + 1#6))

/-- PUSHM (R111): push the operand BYTE of the DATA command whose word stands on CMD (30_encoding.md R71; assumption 4). -/
def execPushm (s : State) : Result := push (byteOf s.cmd) s

/-- PUSH80 (R112): push the marker. -/
def execPush80 (s : State) : Result := push 0x80#8 s

/-- PUSH00 (R113): push a zero byte. -/
def execPush00 (s : State) : Result := push 0x00#8 s

/-- PUSHL at index `li` (R114): push byte `li` of DLEN, the most significant first. -/
def execPushl (li : BitVec 3) (s : State) : Result := push (lengthByte s.dlen li.toNat) s

end Sys2Proof.Machine
end

