-- ==== Sys2Proof/Machine/Commands.lean ====
section
/-! DEFINITION. The host commands START, DATA and LAST (40_padder.md R105 to R108). Each is one whole step (30_encoding.md
R72). -/

namespace Sys2Proof.Machine

/-- START (R105). -/
def execStart (len : DWord) (s : State) : Result :=
  inPhase admitsStart s fun s => .next (s.openMessage Config.initState len)

/-- DATA (R106): in ABSORB, LEN_OVERFLOW at `CNT = 2^61 - 1`, otherwise push the byte and count it. -/
def execData (byte : Byte) (s : State) : Result :=
  inPhase admitsByte s fun s =>
    if s.cnt.toNat = maxMessageBytes then raise .lenOverflow s
    else andThen (push byte s) fun s => .next s.countByte

/-- `while OFF != 56: PUSH00` (R108), for at most `fuel` turns. -/
def zerosLoop : Nat → State → Result
  | 0, s => .next s
  | fuel + 1, s => if s.off = 56#6 then .next s else andThen (execPush00 s) (zerosLoop fuel)

/-- `repeat: PUSHL; LI <- (LI + 1) mod 8` (R108), as many turns as said. -/
def lengthLoop : Nat → State → Result
  | 0, s => .next s
  | n + 1, s => andThen (execPushl s.li s) fun s => lengthLoop n (s.padderAt s.pp (s.li + 1#3))

/-- PADSEQ (R108). The ZEROS loop ends after at most 63 turns (70_reset_and_hazards.md R227), so 64 allow it to end
(assumption 13). -/
def padseq (s : State) : Result :=
  andThen (execPush80 (s.padderAt .mark s.li)) fun s =>
  andThen (zerosLoop 64 (s.padderAt .zeros s.li)) fun s =>
  andThen (lengthLoop 8 (s.padderAt .length 0#3)) fun s =>
  .next (s.padderAt .msg s.li).finish

/-- LAST (R107): in ABSORB, LEN_MISMATCH where `8 * CNT != DLEN` (the product in N), otherwise PADSEQ. -/
def execLast (s : State) : Result :=
  inPhase admitsByte s fun s =>
    if 8 * s.cnt.toNat ≠ s.dlen.toNat then raise .lenMismatch s else padseq s

end Sys2Proof.Machine
end

