-- ==== Sys2Proof/Machine/Dispatch.lean ====
section
/-! DEFINITION. One arm per constructor of Instr. -/

namespace Sys2Proof.Machine

def exec (i : Instr) (s : State) : Host.Outcome State Fault Refusal :=
  match i with
  | .start len => Sys2Proof.Machine.execStart len s
  | .data byte => Sys2Proof.Machine.execData byte s
  | .last => Sys2Proof.Machine.execLast s
  | .pushm => Sys2Proof.Machine.execPushm s
  | .push80 => Sys2Proof.Machine.execPush80 s
  | .push00 => Sys2Proof.Machine.execPush00 s
  | .pushl li => Sys2Proof.Machine.execPushl li s
  | .ldw t => Sys2Proof.Machine.execLdw t s
  | .exp t => Sys2Proof.Machine.execExp t s
  | .ldv => Sys2Proof.Machine.execLdv s
  | .rnd t => Sys2Proof.Machine.execRnd t s
  | .addh => Sys2Proof.Machine.execAddh s

end Sys2Proof.Machine
end

