-- ==== Sys2Proof/Machine/Sequencer.lean ====
section
/-! DEFINITION. The sequencer, which takes the place of a program counter (10_state.md section 6): what runs next, and how
its registers advance after a micro-operation (R38; the orders of 40_padder.md R108 and 42_compression.md R163). -/

namespace Sys2Proof.Machine

/-- The 2-bit code of PP (R34). -/
def PadPhase.code : PadPhase → BitVec 2
  | .msg => 0#2
  | .mark => 1#2
  | .zeros => 2#2
  | .length => 3#2

/-- The value of PP with the given code. -/
def PadPhase.ofCode (c : BitVec 2) : PadPhase :=
  if c = 0#2 then .msg else if c = 1#2 then .mark else if c = 2#2 then .zeros else .length

/-- The 3-bit code of PH (R36). -/
def BlockPhase.code : BlockPhase → BitVec 3
  | .fill => 0#3
  | .loadw => 1#3
  | .expand => 2#3
  | .loadv => 3#3
  | .rounds => 4#3
  | .feed => 5#3
  | .code6 => 6#3
  | .code7 => 7#3

/-- The value of PH with the given code. -/
def BlockPhase.ofCode (c : BitVec 3) : BlockPhase :=
  if c = 0#3 then .fill else if c = 1#3 then .loadw else if c = 2#3 then .expand else if c = 3#3 then .loadv
  else if c = 4#3 then .rounds else if c = 5#3 then .feed else if c = 6#3 then .code6 else .code7

/-- The USEQ9 code the block engine stands at (30_encoding.md R76). -/
def State.engineWord (s : State) : BitVec 9 := engineCode s.ph.code s.t

/-- The PSEQ5 code the padder stands at (R76). -/
def State.padderWord (s : State) : BitVec 5 := padderCode s.pp.code s.li

/-- A micro-operation of the padder is due: it is inside PADSEQ, or a DATA command's PUSHM has not run (assumption 4). -/
def State.padderActive (s : State) : Bool := s.busy || decide (s.pp ≠ .msg) || decide (s.li ≠ 0#3)

/-- What the next step does. -/
inductive Due where
  /-- Run the micro-operation that a sequencer code selects. -/
  | micro (c : Code)
  /-- Take RST, then the rest of the host's list. -/
  | reset (rest : List HostEvent)
  /-- Take a command word, then the rest of the host's list. -/
  | command (w : BitVec 72) (rest : List HostEvent)
  /-- Nothing: no command has arrived (70_reset_and_hazards.md R221). -/
  | idle
deriving DecidableEq, Repr

/-- The next thing due. Work inside the core comes first, the block engine before the padder, because a command is complete
before the next word is accepted (30_encoding.md R72) and BLK before the PUSH that started it ends (R163). Two cases set by
hand are the model's choice (DESIGN CHOICE). With `PH` inside BLK and the padder active, the PUSH that `PP` and `LI` select is
due after ADDH, whole, whether or not it was the one that started BLK (assumption 21). With `PH` and `T` at a legal code of
BLK while `PP` and `LI` hold a code that is never produced (R79: `PP != LENGTH`, `LI != 0`), the micro-operations of BLK are
due all the same, and the padder's code is refused only when it is due, at `PH = FILL` (assumption 23). -/
def due (s : State) : Due :=
  if s.ph ≠ .fill then .micro (.useq s.engineWord)
  else if s.padderActive then .micro (.pseq s.padderWord)
  else
    match s.host with
    | [] => .idle
    | .rst :: rest => .reset rest
    | .command w :: rest => .command w rest

/-- The block engine after a micro-operation of BLK: the index goes up by one; at the end of a phase the next is entered
with its first index; after FEED the block is counted and the engine is idle (10_state.md R38; 42_compression.md R163). Nothing of a PUSH that
might have started BLK is done here (assumption 21). -/
def advanceEngine (s : State) : State :=
  match s.ph with
  | .loadw => if s.t = 15#6 then s.engineAt .expand 16#6 else s.engineAt .loadw (s.t + 1#6)
  | .expand => if s.t = 63#6 then s.engineAt .loadv 0#6 else s.engineAt .expand (s.t + 1#6)
  | .loadv => s.engineAt .rounds 0#6
  | .rounds => if s.t = 63#6 then s.engineAt .feed 0#6 else s.engineAt .rounds (s.t + 1#6)
  | .feed => s.countBlock.engineAt .fill 0#6
  | .fill => s
  | .code6 => s
  | .code7 => s

/-- After the marker and after each zero: `while OFF != 56: PUSH00`, then the length field (40_padder.md R108). -/
def enterZeros (s : State) : State :=
  if s.off = 56#6 then s.padderAt .length 0#3 else s.padderAt .zeros 0#3

/-- The padder after a PUSH (assumption 12). MSG: the DATA command counts its byte and is complete (R106). MARK, ZEROS:
`enterZeros`. LENGTH: the next length byte, and after the eighth `PP <- MSG; ST <- DONE` (R108), whatever ST
was and with CAUSE kept: with ST = FAULT set by hand this is the model's choice (DESIGN CHOICE, assumption 22). -/
def advancePadder (s : State) : State :=
  match s.pp with
  | .msg => s.countByte.setBusy false
  | .mark => enterZeros s
  | .zeros => enterZeros s
  | .length => if s.li = 7#3 then (s.padderAt .msg 0#3).finish else s.padderAt .length (s.li + 1#3)

/-- How the sequencer advances after the micro-operation that `c` selected. A command word advances nothing: it is one whole
step and leaves the sequencer quiescent. -/
def advance (c : Code) (s : State) : State :=
  match c with
  | .cmd _ => s
  | .pseq _ => advancePadder s
  | .useq _ => advanceEngine s

/-- `s` with the word `c` placed where `step` finds its next instruction: a command word as the host's next event with the
sequencer quiescent, a sequencer code in the registers that hold it. Code 00000 is also the quiescent value of PP and LI,
so it needs the DATA command it belongs to on CMD as well, here with BYTE zero. -/
def State.withCode (s : State) : Code → State
  | .cmd w => { ((s.padderAt .msg 0#3).engineAt .fill s.t).setBusy false with host := .command w :: s.host }
  | .pseq c =>
    let s' := ((s.padderAt (.ofCode (ppField c)) (liField c)).engineAt .fill s.t).setBusy false
    if c = 0#5 then (s'.accept (dataWord 0#8) s'.host).setBusy true else s'
  | .useq c => s.engineAt (.ofCode (phField c)) (tField c)

end Sys2Proof.Machine
end

