-- ==== Sys2Proof/Machine/Step.lean ====
section
/-! DEFINITION. One step: the next thing due. At a command boundary that is the host's next event, taken whole (30_encoding.md
R72; assumption 1); with the sequencer inside a sequence it is one micro-operation. -/

namespace Sys2Proof.Machine

/-- Run the micro-operation that the sequencer code `c` selects, then advance the sequencer. A code that is never produced
is refused (R79). ST is not looked at: that the micro-operation runs even in FAULT, where R199 says nothing executes and no
sequence ever is, is the model's choice (DESIGN CHOICE, assumption 22). -/
def stepMicro (c : Code) (s : State) : Host.Outcome State Fault Refusal :=
  match decode c with
  | .ok i => andThen (exec i s) fun s' => .next (advance c s')
  | .error _ => .refused .sequencerCodeNeverProduced

/-- Take the command word `w`: decode it and execute it, or raise BAD_COMMAND (R72, R74, R75). -/
def stepCommand (w : BitVec 72) (rest : List HostEvent) (s : State) : Host.Outcome State Fault Refusal :=
  match decode (.cmd w) with
  | .ok i => exec i (s.accept w rest)
  | .error _ => illegalCommand (s.accept w rest)

/-- One step of the machine. -/
def step (s : State) : Host.Outcome State Fault Refusal :=
  match due s with
  | .micro c => stepMicro c s
  | .reset rest => .next (s.rst rest)
  | .command w rest => stepCommand w rest s
  | .idle => .next s

/-- `s` with the table word stored where `step` fetches its next instruction. -/
def State.withFetchWord (s : State) (nbits w : Nat) : State :=
  match codeOfTableWord nbits w with
  | some c => s.withCode c
  | none => s

end Sys2Proof.Machine
end

