-- ==== Sys2Proof/Machine/Assembler.lean ====
section
/-! DEFINITION. The assembler's lines and what the host does for them (30_encoding.md R80 to R82). -/

namespace Sys2Proof.Machine

/-- A line of a program: a reset, a command, a raw word (R80), or the pseudo-instruction MSG (R81). -/
inductive Line where
  | reset
  | start (len : DWord)
  | data (byte : Byte)
  | last
  | raw (w : BitVec 72)
  | msg (bytes : List Byte)
deriving DecidableEq, Repr

/-- The events of `MSG`: `START 8n`, `DATA` for each byte in order, `LAST` (R81). -/
def messageEvents (m : List Byte) : List HostEvent :=
  .command (startWord (BitVec.ofNat 64 (8 * m.length))) ::
    (m.map (fun b => .command (dataWord b)) ++ [.command lastWord])

/-- What the host does for one line. -/
def Line.events : Line → List HostEvent
  | .reset => [.rst]
  | .start len => [.command (startWord len)]
  | .data byte => [.command (dataWord byte)]
  | .last => [.command lastWord]
  | .raw w => [.command w]
  | .msg m => messageEvents m

/-- A program, executed from top to bottom (R80). -/
def assemble (p : List Line) : List HostEvent := p.flatMap Line.events

/-- The encoding of a program: the words of its commands in order; RESET has none (R82). -/
def programWords (p : List Line) : List (BitVec 72) :=
  (assemble p).filterMap fun
    | .rst => none
    | .command w => some w

end Sys2Proof.Machine
end

