-- ==== Sys2Proof/Machine/Ports.lean ====
section
/-! DEFINITION. The output ports (10_state.md R32; 43_digest_output.md R181, R182): functions of the registers as they stand
between commands. Reading one changes nothing (20_memory.md R60). -/

namespace Sys2Proof.Machine

/-- Port ST, 2 bits (R32). -/
def State.portSt (s : State) : BitVec 2 := s.st.code

/-- Port CAUSE, 3 bits (R32). -/
def State.portCause (s : State) : BitVec 3 := s.cause.code

/-- Port NBLK, 64 bits (R32). -/
def State.portNblk (s : State) : DWord := s.nblk

/-- `H[0] || H[1] || ... || H[7]`, `H[0]` in bits 255:224 (R181). -/
def digestWord (h : Words8) : BitVec 256 :=
  h[0] ++ h[1] ++ h[2] ++ h[3] ++ h[4] ++ h[5] ++ h[6] ++ h[7]

/-- Port DIGEST, 256 bits: shown while `ST = DONE`; a read at any other time is refused (R181, R182; assumption 7). -/
def State.portDigest (s : State) : Option (BitVec 256) :=
  if s.st = .done then some (digestWord s.h) else none

/-- Byte `k` of the digest on the port, `DIGEST[255-8k : 248-8k]` (R181). -/
def portByte (d : BitVec 256) (k : Nat) : Byte := d.extractLsb' (248 - 8 * k) 8

/-- The 32 bytes of the port, first byte first (R181). -/
def portBytes (d : BitVec 256) : List Byte := (List.range 32).map (portByte d)

end Sys2Proof.Machine
end

