-- ==== Sys2Proof/Machine/Reference.lean ====
section
/-! DEFINITION. The function rules (00_scope.md R17): what the source says the block computes, as functions of byte sequences
and words, apart from the machine that realises them. -/

namespace Sys2Proof.Machine

/-- A block: exactly 64 bytes (R19). -/
abbrev Block := Vector Byte 64

/-! ## The Padder (40_padder.md section 1) -/

/-- `paddedLen(n) = ceil((bitLength + 1 + 64) / 512) * 64` with `bitLength = 8n`, in N, in bytes (R102; C1). -/
def paddedLen (n : Nat) : Nat := (8 * n + 1 + 64 + 511) / 512 * 64

/-- The number of zero bytes, `paddedLen(n) - n - 9` (R100). -/
def zeroCount (n : Nat) : Nat := paddedLen n - n - 9

/-- `m ++ [0x80] ++ zeros(z) ++ BE64bytes(8n)` (R100). -/
def padBytes (m : List Byte) : List Byte :=
  m ++ [0x80#8] ++ List.replicate (zeroCount m.length) 0x00#8 ++ be64bytes (BitVec.ofNat 64 (8 * m.length))

/-- `Pad(m)`; outside the precondition of R101 there is no value. -/
def pad (m : List Byte) : Option (List Byte) :=
  if m.length ≤ maxMessageBytes then some (padBytes m) else none

/-! ## The Schedule Expander (41_schedule.md section 2) -/

/-- Word `t` of the block, big-endian, for `t` in 0..15 (R135). -/
def blockWord (b : Block) (t : Nat) (h : t < 16) : Word :=
  be32 b[4 * t] b[4 * t + 1] b[4 * t + 2] b[4 * t + 3]

/-- The first 16 words of the schedule; the rest are not computed yet. -/
def loadedWords (b : Block) : Words64 :=
  Vector.ofFn fun i : Fin 64 => if h : i.val < 16 then blockWord b i.val h else 0#32

/-- `w[t] = w[t-16] + ssig0(w[t-15]) + w[t-7] + ssig1(w[t-2])` (R135). -/
def expandStep (w : Words64) (t : Nat) : Words64 :=
  setWord w (BitVec.ofNat 6 t) (expandedWord w (BitVec.ofNat 6 t))

/-- `Schedule(blk)` (R135). -/
@[irreducible] def schedule (b : Block) : Words64 := (List.range' 16 48).foldl expandStep (loadedWords b)

/-! ## The Compression Engine (42_compression.md section 5) -/

/-- `v = Round(v, K[t], w[t])` (R164). -/
def roundStep (w : Words64) (v : Words8) (t : Nat) : Words8 :=
  round v (readK (BitVec.ofNat 6 t)) (getWord w (BitVec.ofNat 6 t))

/-- `for t in 0..63: v = Round(v, K[t], w[t])` (R164). -/
@[irreducible] def rounds (w : Words64) (v : Words8) : Words8 := (List.range' 0 64).foldl (roundStep w) v

/-- `CompressBlock(s, blk)` (R164). -/
@[irreducible] def compressBlock (s : Words8) (b : Block) : Words8 := addWords s (rounds (schedule b) s)

/-- `p[64i .. 64i+63]` (R165). -/
def blockAt (p : List Byte) (i : Nat) : Block := Vector.ofFn fun j : Fin 64 => p.getD (64 * i + j.val) 0x00#8

/-- The fold of `CompressBlock` over the first `n` blocks of `p`, in increasing offset order (R165). -/
def compressBlocks (s0 : Words8) (p : List Byte) (n : Nat) : Words8 :=
  (List.range n).foldl (fun s i => compressBlock s (blockAt p i)) s0

/-- `Compress(s0, p)`; not defined where the length of `p` is no multiple of 64 (R165, R193). -/
def compress (s0 : Words8) (p : List Byte) : Option Words8 :=
  if p.length % 64 = 0 then some (compressBlocks s0 p (p.length / 64)) else none

/-! ## The digest (43_digest_output.md) -/

/-- `DigestBytes(s)` (R180). -/
def digestBytes (s : Words8) : List Byte := s.toList.flatMap be32bytes

/-- The final state of a message: `Compress(INIT_STATE, Pad(m))` (R183). -/
def finalState (m : List Byte) : Option Words8 := (pad m).bind (compress Config.initState)

/-- `Digest(m)` (R183). -/
def digest (m : List Byte) : Option (List Byte) := (finalState m).map digestBytes

/-- One lowercase hexadecimal digit (R185). -/
def hexDigit (n : BitVec 4) : Char := "0123456789abcdef".toList.getD n.toNat '0'

/-- `Hex(d)`, high nibble first; a notation for vectors, nothing the hardware makes (R185). -/
def hex (d : List Byte) : List Char :=
  d.flatMap fun b => [hexDigit (b.extractLsb' 4 4), hexDigit (b.extractLsb' 0 4)]

end Sys2Proof.Machine
end

