-- ==== Sys2Proof/Safety.lean ====
section
/-! DEFINITION. The terms claims are made in: what the buffer holds, the padded stream (20_memory.md R52), and the invariant
of a command boundary (10_state.md R41). -/

namespace Sys2Proof.Machine

/-- All 64 bytes of the buffer are written and are those of `b`. -/
def Memory.Holds (m : Memory) (b : Block) : Prop := ∀ j (hj : j < 64), m.read j = some b[j]

/-- A command boundary: the sequencer is quiescent (10_state.md R38) and no DATA command is under way. -/
abbrev State.AtBoundary (s : State) : Prop := s.quiescent ∧ s.busy = false

/-- An illegal command word, by the list of 30_encoding.md R75. -/
abbrev IllegalWord (w : BitVec 72) : Prop :=
  (w.extractLsb' 64 8).toNat = 0x00 ∨
    (0x04 ≤ (w.extractLsb' 64 8).toNat ∧ (w.extractLsb' 64 8).toNat ≤ 0xFF) ∨
    ((w.extractLsb' 64 8).toNat = 0x02 ∧ w.extractLsb' 8 56 ≠ 0#56) ∨
    ((w.extractLsb' 64 8).toNat = 0x03 ∧ w.extractLsb' 0 64 ≠ 0#64)

/-- The sequencer codes that R79 does not list as never produced. -/
structure State.SequencerLegal (s : State) : Prop where
  ph6 : s.ph ≠ .code6
  ph7 : s.ph ≠ .code7
  loadw : s.ph = .loadw → s.t.toNat < 16
  expand : s.ph = .expand → 16 ≤ s.t.toNat
  loadv : s.ph = .loadv → s.t = 0#6
  feed : s.ph = .feed → s.t = 0#6
  padder : s.pp ≠ .length → s.li = 0#3

/-- The bytes `p` have been pushed, the first of them at offset 0 when H was `h0` and NBLK was `n0` (R52): byte `p[j]` went
to `B[j mod 64]`, and each complete block was compressed as it filled. -/
structure State.Streamed (s : State) (h0 : Words8) (n0 : DWord) (p : List Byte) : Prop where
  /-- `OFF` is the length of the incomplete last block. -/
  off : s.off.toNat = p.length % 64
  /-- The incomplete last block stands in `B[0 .. OFF-1]`. -/
  tail : ∀ j, j < p.length % 64 → s.buf.read j = p[64 * (p.length / 64) + j]?
  /-- `NBLK` counts the complete blocks. -/
  nblk : s.nblk = n0 + BitVec.ofNat 64 (p.length / 64)
  /-- `H` is the fold of `CompressBlock` over the complete blocks. -/
  h : s.h = compressBlocks h0 p (p.length / 64)

/-- A message is open and `m` is what has been accepted of it: R41 (3). -/
structure State.Absorbing (s : State) (m : List Byte) : Prop where
  st : s.st = .absorb
  count : s.cnt.toNat = m.length
  bound : m.length ≤ maxMessageBytes
  stream : s.Streamed Config.initState 0#64 m

/-- The message `m` is finished: R41 (4). -/
structure State.Finished (s : State) (m : List Byte) : Prop where
  st : s.st = .done
  count : s.cnt.toNat = m.length
  declared : 8 * s.cnt.toNat = s.dlen.toNat
  off : s.off = 0#6
  nblk : s.nblk.toNat = paddedLen m.length / 64
  h : finalState m = some s.h

/-- The invariant of a command boundary: R41, with R27's bound on CNT, the canonical form of the buffer, and no DATA command
under way. The message of (3) and (4) is the host's, so it is any for which the registers are right. -/
structure State.Boundary (s : State) : Prop where
  quiescent : s.quiescent
  settled : s.busy = false
  cause : s.cause = .none ↔ s.st ≠ .fault
  buffer : s.buf.wf = true
  bound : s.cnt.toNat ≤ maxMessageBytes
  absorb : s.st = .absorb → ∃ m, s.Absorbing m
  done : s.st = .done → ∃ m, s.Finished m
  idle : s.st = .idle → s.cnt = 0#64 ∧ s.dlen = 0#64 ∧ s.nblk = 0#64 ∧ s.off = 0#6

/-- `n` steps from `s`. -/
def run (n : Nat) (s : State) : Result := Host.Core.run core n s

/-- `n` steps from `s` end in the next state `t`: no fault and no refusal stops them. -/
def State.RunsTo (s : State) (n : Nat) (t : State) : Prop := run n s = .next t

/-- The registers a command boundary shows the host: the four output ports (10_state.md R32). -/
structure Observed where
  st : BitVec 2
  cause : BitVec 3
  nblk : DWord
  digest : Option (BitVec 256)
deriving DecidableEq, Repr

/-- What the host sees. -/
def State.observe (s : State) : Observed where
  st := s.portSt
  cause := s.portCause
  nblk := s.portNblk
  digest := s.portDigest

end Sys2Proof.Machine
end

