-- ==== Sys2Proof/Certificates/Slice0/Obligations.lean ====
section
/-! DEFINITION. The statements for the provers, one `def Obligations.<Name> : Prop` each. OBLIGATIONS.json lists them with the
rules they formalise. -/

open Sys2Proof Sys2Proof.Machine

/-! ## Encoding -/

/-- 30_encoding.md R73, R77: every instruction the encoding can express, with every operand at every value, decodes from its
own word. -/
def Obligations.DecodeOfEncodeIsTheInstruction : Prop :=
  ∀ i : Instr, i.wellFormed = true → decode (encode i) = .ok i

/-- 30_encoding.md R73, R77: a word decodes to one instruction only, which the encoding can express and whose word it is. -/
def Obligations.DecodedWordIsTheEncoding : Prop :=
  ∀ (c : Code) (i : Instr), decode c = .ok i → i.wellFormed = true ∧ encode i = c

/-- Words written out from the tables of R73 and R77 decode to what they stand for. -/
def Obligations.WrittenOutWordsDecode : Prop :=
  decodeTableWord 72 0x010000000000000018 = some (.start 24#64) ∧
    decodeTableWord 72 0x0200000000000000ff = some (.data 0xff#8) ∧
    decodeTableWord 72 0x030000000000000000 = some .last ∧
    decodeTableWord 72 0x020000000000000100 = none ∧
    decodeTableWord 8 0b00000 = some .pushm ∧
    decodeTableWord 8 0b01000 = some .push80 ∧
    decodeTableWord 8 0b10000 = some .push00 ∧
    decodeTableWord 8 0b11101 = some (.pushl 5#3) ∧
    decodeTableWord 16 0b001001111 = some (.ldw 15#6) ∧
    decodeTableWord 16 0b010010000 = some (.exp 16#6) ∧
    decodeTableWord 16 0b010001111 = none ∧
    decodeTableWord 16 0b011000000 = some .ldv ∧
    decodeTableWord 16 0b100111111 = some (.rnd 63#6) ∧
    decodeTableWord 16 0b101000000 = some .addh

/-- 30_encoding.md R74: `Decode(w)`, case by case. -/
def Obligations.CommandWordsDecodeByOpcode : Prop :=
  ∀ w : BitVec 72,
    (w.extractLsb' 64 8 = 0x01#8 → decode (.cmd w) = .ok (.start (w.extractLsb' 0 64))) ∧
    (w.extractLsb' 64 8 = 0x02#8 → w.extractLsb' 8 56 = 0#56 → decode (.cmd w) = .ok (.data (w.extractLsb' 0 8))) ∧
    (w.extractLsb' 64 8 = 0x03#8 → w.extractLsb' 0 64 = 0#64 → decode (.cmd w) = .ok .last) ∧
    ((∃ e, decode (.cmd w) = .error e) ↔
      ¬ (w.extractLsb' 64 8 = 0x01#8 ∨ (w.extractLsb' 64 8 = 0x02#8 ∧ w.extractLsb' 8 56 = 0#56) ∨
        (w.extractLsb' 64 8 = 0x03#8 ∧ w.extractLsb' 0 64 = 0#64)))

/-- 30_encoding.md R81: the words of `MSG` decode to `START 8n`, `DATA` for each byte in order, `LAST`. For a message of 2^61
bytes or more, to which R80 and R81 give no MSG, that START carries `8n` modulo 2^64 is the model's choice (assumption 18). -/
def Obligations.MessageWordsDecodeInOrder : Prop :=
  ∀ m : List Byte, (messageEvents m).map (fun e => match e with
      | .rst => none
      | .command w => (decode (.cmd w)).toOption) =
    [some (.start (BitVec.ofNat 64 (8 * m.length)))] ++ m.map (fun b => some (.data b)) ++ [some .last]

/-! ## One step -/

/-- 30_encoding.md R72: at a command boundary, when the host presents a word that decodes, the step is `exec` of the
instruction, whole, with the word on CMD and the event taken from the host's list. -/
def Obligations.StepRunsTheDecodedCommand : Prop :=
  ∀ (s : State) (w : BitVec 72) (rest : List HostEvent) (i : Instr), s.AtBoundary → s.host = .command w :: rest →
    decode (.cmd w) = .ok i → step s = exec i { s with cmd := w, host := rest }

/-- 30_encoding.md R76, R77; 10_state.md R38: with the block engine at a phase, the step is the micro-operation that `PH` and
`T` select, and then the advance of the engine; with the engine idle and the padder active, the one `PP` and `LI` select,
and then the advance of the padder. A stop of the micro-operation is the step's. Which code selects which micro-operation
is R76's and R77's. The stepping itself is the model's choice: that a step is one micro-operation (assumption 1), what the
padder's advance adds after a PUSH (assumption 12), and, in states set by hand that R78, R79 and R199 leave without a meaning,
that BLK runs by itself and before the padder (assumptions 21, 23) and that a sequence runs on in FAULT, even to DONE
(assumption 22). -/
def Obligations.StepRunsTheSelectedMicroOperation : Prop :=
  ∀ (s : State) (i : Instr),
    (s.ph ≠ .fill → decode (.useq (engineCode s.ph.code s.t)) = .ok i →
      (∀ u, exec i s = .next u → step s = .next (advanceEngine u)) ∧
      (∀ e, exec i s = .fault e → step s = .fault e)) ∧
    (s.ph = .fill → (s.busy = true ∨ s.pp ≠ .msg ∨ s.li ≠ 0#3) → decode (.pseq (padderCode s.pp.code s.li)) = .ok i →
      (∀ u, exec i s = .next u → step s = .next (advancePadder u)) ∧
      (∀ e, exec i s = .fault e → step s = .fault e))

/-- 30_encoding.md R75; 60_exceptions.md R194: an illegal word raises BAD_COMMAND in every status but FAULT, where it is
ignored; nothing but ST and CAUSE is written. -/
def Obligations.IllegalWordRaisesBadCommand : Prop :=
  ∀ (s : State) (w : BitVec 72) (rest : List HostEvent), s.AtBoundary → s.host = .command w :: rest → IllegalWord w →
    (s.st ≠ .fault → step s = .next { s with cmd := w, host := rest, st := .fault, cause := .badCommand }) ∧
    (s.st = .fault → step s = .next { s with cmd := w, host := rest })

/-- 30_encoding.md R79: a step asked about a sequencer code that is never produced refuses. It is asked about the code that is
due, the block engine's first, whatever ST is: the model's choice (assumptions 10, 22, 23). -/
def Obligations.NeverProducedCodesAreRefused : Prop :=
  ∀ s : State,
    ((s.ph = .code6 ∨ s.ph = .code7 ∨ (s.ph = .loadw ∧ 16 ≤ s.t.toNat) ∨ (s.ph = .expand ∧ s.t.toNat < 16) ∨
        (s.ph = .loadv ∧ s.t ≠ 0#6) ∨ (s.ph = .feed ∧ s.t ≠ 0#6)) →
      step s = .refused .sequencerCodeNeverProduced) ∧
    (s.ph = .fill → s.pp ≠ .length → s.li ≠ 0#3 → step s = .refused .sequencerCodeNeverProduced)

/-- 70_reset_and_hazards.md R220: at a command boundary, in any status, RST sets the control and status registers, and it is
the only way out of FAULT. Nothing is said of H, V, W and B. -/
def Obligations.ResetSetsControlRegisters : Prop :=
  ∀ s : State, s.AtBoundary →
    (∀ rest, s.host = .rst :: rest → ∃ t, step s = .next t ∧ t.st = .idle ∧ t.cause = .none ∧ t.dlen = 0#64 ∧
      t.cnt = 0#64 ∧ t.nblk = 0#64 ∧ t.off = 0#6 ∧ t.pp = .msg ∧ t.li = 0#3 ∧ t.ph = .fill ∧ t.t = 0#6 ∧ t.host = rest) ∧
    (∀ t, s.st = .fault → step s = .next t → t.st ≠ .fault → ∃ rest, s.host = .rst :: rest)

/-- 70_reset_and_hazards.md R221: with nothing from the host, nothing happens. That a step then answers the same state is
the model's choice (assumption 16). -/
def Obligations.NothingHappensWithoutTheHost : Prop :=
  ∀ s : State, s.AtBoundary → s.host = [] → step s = .next s

/-! ## START, DATA, LAST -/

/-- 40_padder.md R105: START, opcode 0x01, in IDLE or DONE opens a message and writes nothing else; in ABSORB it is
BAD_PHASE; in FAULT it is ignored. -/
def Obligations.StartOpensAMessage : Prop :=
  ∀ (s : State) (len : DWord),
    decode (.cmd (0x01#8 ++ len)) = .ok (.start len) ∧
    (s.st = .idle ∨ s.st = .done → exec (.start len) s = .next
      { s with h := IV, dlen := len, cnt := 0#64, off := 0#6, nblk := 0#64, st := .absorb }) ∧
    (s.st = .absorb → exec (.start len) s = .next { s with st := .fault, cause := .badPhase }) ∧
    (s.st = .fault → exec (.start len) s = .next s)

/-- 40_padder.md R106, R110: DATA below offset 63 puts its byte at OFF, moves OFF on and counts the byte; every other byte and
register stays. -/
def Obligations.DataBelowTheBlockEndStoresItsByte : Prop :=
  ∀ (s : State) (b : Byte), s.st = .absorb → s.cnt.toNat ≠ 2 ^ 61 - 1 → s.off ≠ 63#6 →
    ∃ t, exec (.data b) s = .next t ∧ t.buf.read s.off.toNat = some b ∧
      (∀ a, a ≠ s.off.toNat → t.buf.read a = s.buf.read a) ∧
      t = { s with buf := t.buf, off := s.off + 1#6, cnt := s.cnt + 1#64 }

/-- 40_padder.md R106, R110; 41_schedule.md R138; 42_compression.md R164: DATA at offset 63 completes a block `blk`, the 63
bytes there and its own, and compresses it: H becomes `CompressBlock(H, blk)`, W its schedule, NBLK one more, OFF 0. -/
def Obligations.DataAtTheBlockEndCompresses : Prop :=
  ∀ (s : State) (blk : Block), s.st = .absorb → s.cnt.toNat ≠ 2 ^ 61 - 1 → s.off = 63#6 →
    (∀ j (hj : j < 63), s.buf.read j = some blk[j]) →
    ∃ t, exec (.data blk[63]) s = .next t ∧ t.buf.read 63 = some blk[63] ∧
      (∀ a, a ≠ 63 → t.buf.read a = s.buf.read a) ∧
      t = { s with h := compressBlock s.h blk, v := rounds (schedule blk) s.h, w := schedule blk, buf := t.buf, off := 0#6, cnt := s.cnt + 1#64, nblk := s.nblk + 1#64, ph := .fill, t := 0#6 }

/-- 60_exceptions.md R191, R192, R194, R195, R199: which cause a command records at a boundary, outside FAULT, and that it
records one exactly when it faults. LEN_MISMATCH is LAST's alone and LEN_OVERFLOW is DATA's alone; BAD_COMMAND outranks the
phase, and the phase the command's own check. -/
def Obligations.EachCommandRecordsItsCause : Prop :=
  ∀ (s t : State) (w : BitVec 72) (rest : List HostEvent), s.AtBoundary → s.host = .command w :: rest →
    s.st ≠ .fault → s.cause = .none → step s = .next t →
    (t.cause = .badCommand ↔ IllegalWord w) ∧
    (t.cause = .badPhase ↔ ¬ IllegalWord w ∧
      ((w.extractLsb' 64 8 = 0x01#8 ∧ s.st = .absorb) ∨ (w.extractLsb' 64 8 ≠ 0x01#8 ∧ s.st ≠ .absorb))) ∧
    (t.cause = .lenOverflow ↔ ¬ IllegalWord w ∧ w.extractLsb' 64 8 = 0x02#8 ∧ s.st = .absorb ∧
      s.cnt.toNat = 2 ^ 61 - 1) ∧
    (t.cause = .lenMismatch ↔ ¬ IllegalWord w ∧ w.extractLsb' 64 8 = 0x03#8 ∧ s.st = .absorb ∧
      8 * s.cnt.toNat ≠ s.dlen.toNat) ∧
    (t.st = .fault ↔ t.cause ≠ .none)

/-- 60_exceptions.md R197: a command that faults changes ST and CAUSE and nothing else, and records a cause. -/
def Obligations.FaultingCommandChangesOnlyStatus : Prop :=
  ∀ (s t : State) (i : Instr), ((∃ len, i = .start len) ∨ (∃ b, i = .data b) ∨ i = .last) → s.st ≠ .fault →
    exec i s = .next t → t.st = .fault → t.cause ≠ .none ∧ t = { s with st := .fault, cause := t.cause }

/-- 60_exceptions.md R198: in FAULT every word, legal or not, changes no register (CMD is a port), and DIGEST is not shown (R182; a
read is refused by assumption 7); only RST leaves FAULT. -/
def Obligations.FaultIsTerminalUntilReset : Prop :=
  ∀ s : State, s.AtBoundary → s.st = .fault →
    (∀ w rest, s.host = .command w :: rest → step s = .next { s with cmd := w, host := rest }) ∧
    (∀ t, step s = .next t → t.st = .fault ∨ (∃ rest, s.host = .rst :: rest)) ∧
    s.portDigest = none

/-- 40_padder.md R107: LAST whose count disagrees is LEN_MISMATCH, out of phase BAD_PHASE, in FAULT ignored. -/
def Obligations.LastChecksPhaseAndLength : Prop :=
  ∀ s : State,
    (s.st = .fault → exec .last s = .next s) ∧
    (s.st = .idle ∨ s.st = .done → exec .last s = .next { s with st := .fault, cause := .badPhase }) ∧
    (s.st = .absorb → 8 * s.cnt.toNat ≠ s.dlen.toNat →
      exec .last s = .next { s with st := .fault, cause := .lenMismatch })

/-- 60_exceptions.md R192, R195: DATA past the longest message is LEN_OVERFLOW and its byte is not pushed; out of phase it is
BAD_PHASE; in FAULT it is ignored. -/
def Obligations.DataChecksPhaseAndOverflow : Prop :=
  ∀ (s : State) (b : Byte),
    (s.st = .fault → exec (.data b) s = .next s) ∧
    (s.st = .idle ∨ s.st = .done → exec (.data b) s = .next { s with st := .fault, cause := .badPhase }) ∧
    (s.st = .absorb → s.cnt.toNat = 2 ^ 61 - 1 →
      exec (.data b) s = .next { s with st := .fault, cause := .lenOverflow })

/-- 40_padder.md R107 to R109: LAST with the right length, `tail` being the incomplete block in B, pads it with the marker,
`(55 - r) mod 64` zeros and the length field, compresses the one or two blocks this makes, and ends in DONE with OFF 0 and
the sequencer quiescent. B holds the last block then and nothing outside its 64 bytes has changed; V and W are what the last
block leaves; DLEN, CNT, CAUSE, CMD and the host's list stay. -/
def Obligations.LastPadsAndFinishes : Prop :=
  ∀ (s : State) (tail : List Byte), s.st = .absorb → s.quiescent → 8 * s.cnt.toNat = s.dlen.toNat →
    tail.length < 64 → s.off.toNat = tail.length → (∀ j (hj : j < tail.length), s.buf.read j = some tail[j]) →
    let blocks := if tail.length ≤ 55 then 1 else 2
    let padded := tail ++ [0x80#8] ++ List.replicate ((119 - tail.length) % 64) 0x00#8 ++ be64bytes s.dlen
    ∃ t, exec .last s = .next t ∧ t.st = .done ∧ t.off = 0#6 ∧ t.quiescent ∧
      t.nblk = s.nblk + BitVec.ofNat 64 blocks ∧
      t.h = compressBlocks s.h padded blocks ∧
      t.w = schedule (blockAt padded (blocks - 1)) ∧
      t.v = rounds (schedule (blockAt padded (blocks - 1))) (compressBlocks s.h padded (blocks - 1)) ∧
      (∀ j, j < 64 → t.buf.read j = padded[64 * (blocks - 1) + j]?) ∧
      (∀ a, 64 ≤ a → t.buf.read a = s.buf.read a) ∧
      t.dlen = s.dlen ∧ t.cnt = s.cnt ∧ t.cause = s.cause ∧ t.cmd = s.cmd ∧ t.busy = s.busy ∧ t.host = s.host

/-- 10_state.md R29, R166: at a boundary a command leaves ST as it was, or makes it FAULT, or is an accepted START (to ABSORB
from IDLE or DONE) or an accepted LAST (to DONE from ABSORB). -/
def Obligations.StatusMovesOnlyAsDescribed : Prop :=
  ∀ (s t : State) (w : BitVec 72) (rest : List HostEvent), s.AtBoundary → s.host = .command w :: rest → step s = .next t →
    t.st = s.st ∨ t.st = .fault ∨
    (w.extractLsb' 64 8 = 0x01#8 ∧ (s.st = .idle ∨ s.st = .done) ∧ t.st = .absorb) ∨
    (w = lastWord ∧ s.st = .absorb ∧ t.st = .done)

/-- 10_state.md R20, R166: H is written by START, by ADDH, and by a PUSH that completes a block (DATA and LAST included), and
by nothing else. -/
def Obligations.DigestStateHasNoOtherWriter : Prop :=
  ∀ (s t : State) (i : Instr), exec i s = .next t → t.h ≠ s.h →
    (∃ len, i = .start len) ∨ i = .addh ∨ i = .last ∨
    (s.off = 63#6 ∧ ((∃ b, i = .data b) ∨ i = .pushm ∨ i = .push80 ∨ i = .push00 ∨ ∃ li, i = .pushl li))

/-- 10_state.md R26 to R30, R33: DLEN is START's, CNT is START's and DATA's, NBLK is START's and that of a PUSH that completes
a block (DATA and LAST included), CAUSE and ST are the commands', OFF and B the PUSHes' (OFF START's too), and no instruction
touches port CMD, the DATA mark or the host's list. -/
def Obligations.ControlRegistersHaveNoOtherWriter : Prop :=
  ∀ (s t : State) (i : Instr), exec i s = .next t →
    (t.dlen ≠ s.dlen → ∃ len, i = .start len) ∧
    (t.cnt ≠ s.cnt → (∃ len, i = .start len) ∨ ∃ b, i = .data b) ∧
    (t.nblk ≠ s.nblk → (∃ len, i = .start len) ∨ i = .last ∨
      (s.off = 63#6 ∧ ((∃ b, i = .data b) ∨ i = .pushm ∨ i = .push80 ∨ i = .push00 ∨ ∃ li, i = .pushl li))) ∧
    (t.st ≠ s.st ∨ t.cause ≠ s.cause → (∃ len, i = .start len) ∨ (∃ b, i = .data b) ∨ i = .last) ∧
    (t.buf ≠ s.buf → (∃ b, i = .data b) ∨ i = .last ∨ i = .pushm ∨ i = .push80 ∨ i = .push00 ∨ ∃ li, i = .pushl li) ∧
    (t.off ≠ s.off → (∃ len, i = .start len) ∨ (∃ b, i = .data b) ∨ i = .last ∨ i = .pushm ∨ i = .push80 ∨
      i = .push00 ∨ ∃ li, i = .pushl li) ∧
    t.cmd = s.cmd ∧ t.busy = s.busy ∧ t.host = s.host

/-! ## The padder's micro-operations -/

/-- 40_padder.md R110, R112 to R114: PUSH80, PUSH00 and PUSHL put their byte at OFF. Below 63 OFF goes up by one and nothing
else changes; at 63, the other 63 bytes being there, OFF returns to 0 and BLK compresses the block. -/
def Obligations.PushStoresAndAtTheBlockEndCompresses : Prop :=
  ∀ (s : State) (i : Instr) (x : Byte),
    ((i = .push80 ∧ x = 0x80#8) ∨ (i = .push00 ∧ x = 0x00#8) ∨
      (∃ li : BitVec 3, i = .pushl li ∧ x = s.dlen.extractLsb' (56 - 8 * li.toNat) 8)) →
    (s.off ≠ 63#6 → ∃ t, exec i s = .next t ∧ t.buf.read s.off.toNat = some x ∧
      (∀ a, a ≠ s.off.toNat → t.buf.read a = s.buf.read a) ∧ t = { s with buf := t.buf, off := s.off + 1#6 }) ∧
    (∀ blk : Block, s.off = 63#6 → (∀ j (hj : j < 63), s.buf.read j = some blk[j]) → blk[63] = x →
      ∃ t, exec i s = .next t ∧ t.buf.read 63 = some x ∧ (∀ a, a ≠ 63 → t.buf.read a = s.buf.read a) ∧
        t = { s with h := compressBlock s.h blk, v := rounds (schedule blk) s.h, w := schedule blk, buf := t.buf, off := 0#6, nblk := s.nblk + 1#64, ph := .fill, t := 0#6 })

/-- 40_padder.md R106, R111: PUSHM pushes the byte of the DATA word on CMD (that it stands on CMD is the model's choice,
assumption 4), with the frame of the other pushes, and DATA, where it executes, is PUSHM and then `CNT <- CNT + 1`. -/
def Obligations.DataIsPushmThenCount : Prop :=
  ∀ (s : State) (b : Byte), s.cmd = dataWord b →
    (s.off ≠ 63#6 → ∃ t, exec .pushm s = .next t ∧ t.buf.read s.off.toNat = some b ∧
      (∀ a, a ≠ s.off.toNat → t.buf.read a = s.buf.read a) ∧ t = { s with buf := t.buf, off := s.off + 1#6 }) ∧
    (∀ blk : Block, s.off = 63#6 → (∀ j (hj : j < 63), s.buf.read j = some blk[j]) → blk[63] = b →
      ∃ t, exec .pushm s = .next t ∧ t.buf.read 63 = some b ∧ (∀ a, a ≠ 63 → t.buf.read a = s.buf.read a) ∧
        t = { s with h := compressBlock s.h blk, v := rounds (schedule blk) s.h, w := schedule blk, buf := t.buf, off := 0#6, nblk := s.nblk + 1#64, ph := .fill, t := 0#6 }) ∧
    (s.st = .absorb → s.cnt.toNat ≠ 2 ^ 61 - 1 →
      (∀ u, exec .pushm s = .next u → exec (.data b) s = .next { u with cnt := u.cnt + 1#64 }) ∧
      (∀ e, exec .pushm s = .fault e → exec (.data b) s = .fault e))

/-- 10_state.md R44 (assumption 6): an instruction that would read a byte of B which nothing has written stops with the
model's own fault: LDW on its four bytes, a PUSH or DATA at offset 63, LAST on the incomplete block. -/
def Obligations.UnwrittenBufferByteFaults : Prop :=
  ∀ s : State,
    (∀ (t : BitVec 6) (j : Nat), t.toNat < 16 → j < 4 → s.buf.read (4 * t.toNat + j) = none →
      exec (.ldw t) s = .fault .bufferByteUnwritten) ∧
    (∀ (i : Instr) (j : Nat), (i = .pushm ∨ i = .push80 ∨ i = .push00 ∨ ∃ li, i = .pushl li) → s.off = 63#6 → j < 63 →
      s.buf.read j = none → exec i s = .fault .bufferByteUnwritten) ∧
    (∀ (b : Byte) (j : Nat), s.st = .absorb → s.cnt.toNat ≠ 2 ^ 61 - 1 → s.off = 63#6 → j < 63 → s.buf.read j = none →
      exec (.data b) s = .fault .bufferByteUnwritten) ∧
    (∀ j : Nat, s.st = .absorb → 8 * s.cnt.toNat = s.dlen.toNat → j < s.off.toNat → s.buf.read j = none →
      exec .last s = .fault .bufferByteUnwritten)

/-! ## The schedule expander -/

/-- 41_schedule.md R136; 20_memory.md R55: LDW, code 00100tttt, loads the big-endian word of its four bytes and
changes nothing else. -/
def Obligations.LdwLoadsABigEndianWord : Prop :=
  ∀ (s : State) (t : BitVec 6) (b0 b1 b2 b3 : Byte), t.toNat < 16 →
    s.buf.read (4 * t.toNat) = some b0 → s.buf.read (4 * t.toNat + 1) = some b1 →
    s.buf.read (4 * t.toNat + 2) = some b2 → s.buf.read (4 * t.toNat + 3) = some b3 →
    decode (.useq (0b001#3 ++ t)) = .ok (.ldw t) ∧
    ∃ u, exec (.ldw t) s = .next u ∧ getWord u.w t = b0 ++ b1 ++ b2 ++ b3 ∧
      (∀ i, i ≠ t → getWord u.w i = getWord s.w i) ∧ u = { s with w := u.w }

/-- 41_schedule.md R137: EXP, code 010tttttt, computes its word from the four before it and changes nothing else. -/
def Obligations.ExpExpandsOneWord : Prop :=
  ∀ (s : State) (t : BitVec 6), 16 ≤ t.toNat →
    decode (.useq (0b010#3 ++ t)) = .ok (.exp t) ∧
    ∃ u, exec (.exp t) s = .next u ∧
      getWord u.w t = getWord s.w (BitVec.ofNat 6 (t.toNat - 16)) + ssig0 (getWord s.w (BitVec.ofNat 6 (t.toNat - 15))) +
        getWord s.w (BitVec.ofNat 6 (t.toNat - 7)) + ssig1 (getWord s.w (BitVec.ofNat 6 (t.toNat - 2))) ∧
      (∀ i, i ≠ t → getWord u.w i = getWord s.w i) ∧ u = { s with w := u.w }

/-- 30_encoding.md R77, R79: LDW and EXP with an index the encoding does not give them have no meaning. -/
def Obligations.IndexOutOfRangeIsRefused : Prop :=
  ∀ (s : State) (t : BitVec 6),
    (16 ≤ t.toNat → exec (.ldw t) s = .refused .sequencerCodeNeverProduced) ∧
    (t.toNat < 16 → exec (.exp t) s = .refused .sequencerCodeNeverProduced)

/-- 41_schedule.md R135: `Schedule` meets its two defining equations, and the zero block has the zero schedule. -/
def Obligations.ScheduleMeetsItsRecurrence : Prop :=
  (∀ (b : Block) (t : Nat) (ht : t < 16),
    (schedule b)[t] = b[4 * t] ++ b[4 * t + 1] ++ b[4 * t + 2] ++ b[4 * t + 3]) ∧
  (∀ (b : Block) (t : Nat) (ht : 16 ≤ t) (hl : t < 64),
    (schedule b)[t] = (schedule b)[t - 16] + ssig0 (schedule b)[t - 15] + (schedule b)[t - 7] + ssig1 (schedule b)[t - 2]) ∧
  schedule (Vector.replicate 64 0x00#8) = Vector.replicate 64 0#32

/-- 41_schedule.md R130 to R133; 42_compression.md R150, R151: the rotation and the four sigma functions, bit by bit. -/
def Obligations.SigmaFunctionsBitByBit : Prop :=
  ∀ (x : Word) (i : Nat), i < 32 →
    (∀ (n : Nat) (h : 0 < n ∧ n < 32), (rotr x n h).getLsbD i = x.getLsbD ((i + n) % 32)) ∧
    (ssig0 x).getLsbD i = ((x.getLsbD ((i + 7) % 32) ^^ x.getLsbD ((i + 18) % 32)) ^^ (decide (i + 3 < 32) && x.getLsbD (i + 3))) ∧
    (ssig1 x).getLsbD i = ((x.getLsbD ((i + 17) % 32) ^^ x.getLsbD ((i + 19) % 32)) ^^ (decide (i + 10 < 32) && x.getLsbD (i + 10))) ∧
    (bsig0 x).getLsbD i = ((x.getLsbD ((i + 2) % 32) ^^ x.getLsbD ((i + 13) % 32)) ^^ x.getLsbD ((i + 22) % 32)) ∧
    (bsig1 x).getLsbD i = ((x.getLsbD ((i + 6) % 32) ^^ x.getLsbD ((i + 11) % 32)) ^^ x.getLsbD ((i + 25) % 32))

/-- 42_compression.md R152, R153: Ch selects by the bit of `x`; Maj is the majority. -/
def Obligations.ChSelectsAndMajIsTheMajority : Prop :=
  ∀ (x y z : Word) (i : Nat), i < 32 →
    (ch x y z).getLsbD i = (if x.getLsbD i then y.getLsbD i else z.getLsbD i) ∧
    ((maj x y z).getLsbD i = true ↔
      2 ≤ (x.getLsbD i).toNat + (y.getLsbD i).toNat + (z.getLsbD i).toNat)

/-! ## The compression engine -/

/-- 42_compression.md R160: LDV, code 011000000, copies H to V and changes nothing else. -/
def Obligations.LdvCopiesTheDigestState : Prop :=
  decode (.useq 0b011000000#9) = .ok .ldv ∧
  ∀ s : State, ∃ t, exec .ldv s = .next t ∧ (∀ i (hi : i < 8), t.v[i] = s.h[i]) ∧ t = { s with v := t.v }

/-- 42_compression.md R161: RND, code 100tttttt, is one round on the working variables a..h, with K[T] and W[T]; nothing else
changes. -/
def Obligations.RndIsOneRound : Prop :=
  ∀ (s : State) (t : BitVec 6),
    let temp1 := s.v[7] + bsig1 s.v[4] + ch s.v[4] s.v[5] s.v[6] + K[t.toNat]'t.isLt + s.w[t.toNat]'t.isLt
    let temp2 := bsig0 s.v[0] + maj s.v[0] s.v[1] s.v[2]
    decode (.useq (0b100#3 ++ t)) = .ok (.rnd t) ∧
    ∃ u, exec (.rnd t) s = .next u ∧ u.v[0] = temp1 + temp2 ∧ u.v[1] = s.v[0] ∧ u.v[2] = s.v[1] ∧ u.v[3] = s.v[2] ∧
      u.v[4] = s.v[3] + temp1 ∧ u.v[5] = s.v[4] ∧ u.v[6] = s.v[5] ∧ u.v[7] = s.v[6] ∧ u = { s with v := u.v }

/-- 42_compression.md R162: ADDH, code 101000000, adds V into H, word by word modulo 2^32, and changes nothing else. -/
def Obligations.AddhAddsTheWorkingVariables : Prop :=
  decode (.useq 0b101000000#9) = .ok .addh ∧
  ∀ s : State, ∃ t, exec .addh s = .next t ∧ (∀ i (hi : i < 8), t.h[i] = s.h[i] + s.v[i]) ∧ t = { s with h := t.h }

/-- 42_compression.md R163, R164: the 130 micro-operations of BLK, from LOADW and index 0, compress a full buffer: the schedule
in W, the rounds in V, `CompressBlock` in H, NBLK one more, the engine idle again, and nothing else changed. That they are 130
STEPS is the model's choice (assumption 1), and so is that BLK runs from this start state at all: it stands by itself there,
outside any PUSH (assumption 21), whatever ST is, FAULT included (assumption 22), and whatever PP and LI hold, a never-produced
code included (assumption 23). -/
def Obligations.BlockSequenceTakes130Steps : Prop :=
  ∀ (s : State) (blk : Block), s.buf.Holds blk →
    run 130 { s with ph := .loadw, t := 0#6 } = .next { s with
      h := compressBlock s.h blk, v := rounds (schedule blk) s.h, w := schedule blk, nblk := s.nblk + 1#64, ph := .fill, t := 0#6 }

/-- 40_padder.md R108; 70_reset_and_hazards.md R229: LAST as one step, and its PUSHes run in order from `PP = MARK`, end in the
same state. R108 and R229 give the PUSHes and their number, `9 + ((55 - r) mod 64)` with `r` being OFF. That each is one STEP,
its BLK included, is the model's choice (assumption 1), and so is what the padder's advance does between two of them and after
the last (assumption 12). -/
def Obligations.LastAgreesWithItsPushes : Prop :=
  ∀ (s : State) (tail : List Byte), s.st = .absorb → s.quiescent → 8 * s.cnt.toNat = s.dlen.toNat →
    tail.length < 64 → s.off.toNat = tail.length → (∀ j (hj : j < tail.length), s.buf.read j = some tail[j]) →
    ∃ t, exec .last s = .next t ∧ run (9 + (119 - tail.length) % 64) { s with pp := .mark } = .next t

/-! ## The function rules -/

/-- 40_padder.md R100, R101: `Pad(m)` is the message, the marker, zeros, and the bit length big-endian in the final 8 bytes, a
whole number of blocks long; it has no value for a message longer than 2^61 - 1 bytes. -/
def Obligations.PadIsTheMessageMarkerZerosAndLength : Prop :=
  ∀ m : List Byte,
    (m.length ≤ 2 ^ 61 - 1 → ∃ p, pad m = some p ∧ p.length = 64 * ((m.length + 8) / 64 + 1) ∧
      (∀ j, j < m.length → p[j]? = m[j]?) ∧ p[m.length]? = some 0x80#8 ∧
      (∀ j, m.length < j → j < p.length - 8 → p[j]? = some 0x00#8) ∧
      (p.drop (p.length - 8)).foldl (fun n (b : Byte) => 256 * n + b.toNat) 0 = 8 * m.length) ∧
    (2 ^ 61 - 1 < m.length → pad m = none)

/-- 42_compression.md R165: `Compress` is the fold over whole blocks, extends one block at a time, and is not defined on any
other length. -/
def Obligations.CompressFoldsWholeBlocks : Prop :=
  ∀ (s0 : Words8) (p : List Byte),
    (p.length % 64 ≠ 0 → compress s0 p = none) ∧
    compress s0 [] = some s0 ∧
    (∀ (s : Words8) (blk : Block), compress s0 p = some s → compress s0 (p ++ blk.toList) = some (compressBlock s blk))

/-- 43_digest_output.md R180, and R181 in part: in DONE the port DIGEST shows H, and its bytes, first byte most significant, are
`DigestBytes(H)`: byte `4i + j` is byte `j` of `H[i]`. -/
def Obligations.DigestPortShowsTheDigestBytes : Prop :=
  ∀ s : State, s.st = .done → ∃ d, s.portDigest = some d ∧
    d = s.h[0] ++ s.h[1] ++ s.h[2] ++ s.h[3] ++ s.h[4] ++ s.h[5] ++ s.h[6] ++ s.h[7] ∧
    portBytes d = digestBytes s.h ∧ (digestBytes s.h).length = 32 ∧
    (∀ i (hi : i < 8) (j : Nat), j < 4 →
      (digestBytes s.h)[4 * i + j]? = some (s.h[i].extractLsb' (24 - 8 * j) 8))

/-- 10_state.md R29, R30, R32: what the ports ST, CAUSE and NBLK show: the codes 0 to 3 of the status, the codes 0 to 4 of
the cause (5, 6 and 7 are shown by no state), and the block count. -/
def Obligations.StatusPortsShowTheirCodes : Prop :=
  ∀ s : State,
    (s.portSt = 0#2 ↔ s.st = .idle) ∧ (s.portSt = 1#2 ↔ s.st = .absorb) ∧ (s.portSt = 2#2 ↔ s.st = .done) ∧
    (s.portSt = 3#2 ↔ s.st = .fault) ∧
    (s.portCause = 0#3 ↔ s.cause = .none) ∧ (s.portCause = 1#3 ↔ s.cause = .lenMismatch) ∧
    (s.portCause = 2#3 ↔ s.cause = .lenOverflow) ∧ (s.portCause = 3#3 ↔ s.cause = .badCommand) ∧
    (s.portCause = 4#3 ↔ s.cause = .badPhase) ∧ s.portCause.toNat ≤ 4 ∧
    s.portNblk = s.nblk

/-! ## Invariants and whole-machine rules -/

/-- 10_state.md R41: the state after reset meets the invariant of a command boundary. -/
def Obligations.ResetMeetsTheBoundaryInvariant : Prop := State.reset.Boundary

/-- 10_state.md R41: every step from a command boundary keeps the invariant, the correspondence of H, B, NBLK and OFF with a
message included. -/
def Obligations.StepKeepsTheBoundaryInvariant : Prop :=
  ∀ s t : State, s.Boundary → step s = .next t → t.Boundary

/-- 10_state.md R44; 70_reset_and_hazards.md R227: from a command boundary every step ends in a next state: no byte of B is
read before it is written, and nothing is refused. -/
def Obligations.BoundaryStepNeverStops : Prop :=
  ∀ s : State, s.Boundary → ∃ t, step s = .next t

/-- The buffer keeps its canonical form under every step of every state, those set by hand inside a sequence included, whose
steps are the model's choice (assumptions 1, 12, 21, 22, 23). -/
def Obligations.StepKeepsTheBufferCanonical : Prop :=
  ∀ s t : State, s.buf.wf = true → step s = .next t → t.buf.wf = true

/-- 30_encoding.md R79: from a legal sequencer code, no step produces a code of the never-produced list. For the spec's own
sequences that is R79's; for a state set by hand inside a sequence the steps are the model's choice (assumptions 1, 12, 21,
22). -/
def Obligations.StepKeepsTheSequencerLegal : Prop :=
  ∀ s t : State, s.SequencerLegal → step s = .next t → t.SequencerLegal

/-- 20_memory.md R52; 40_padder.md R106: DATA extends the message the registers stand for by its byte. -/
def Obligations.DataExtendsTheMessage : Prop :=
  ∀ (s : State) (m : List Byte) (b : Byte), s.Absorbing m → m.length < 2 ^ 61 - 1 →
    ∃ t, exec (.data b) s = .next t ∧ t.Absorbing (m ++ [b])

/-- 40_padder.md R115: LAST, the declared length being right, finishes the message the registers stand for: H is
`Compress(INIT_STATE, Pad(m))` and NBLK the number of blocks of `Pad(m)`. -/
def Obligations.LastFinishesTheMessage : Prop :=
  ∀ (s : State) (m : List Byte), s.Absorbing m → s.dlen.toNat = 8 * m.length →
    ∃ t, exec .last s = .next t ∧ t.Finished m

/-- 43_digest_output.md R186: from any state in IDLE or DONE (with no cause recorded, as the invariant has it), the commands
`START 8n`, the `n` DATA, `LAST` end in DONE with the right block count and final state, and the port shows `Digest(m)`. -/
def Obligations.MessageCommandsGiveTheDigest : Prop :=
  ∀ (s : State) (m : List Byte) (rest : List HostEvent), s.AtBoundary → (s.st = .idle ∨ s.st = .done) → s.cause = .none →
    m.length ≤ 2 ^ 61 - 1 → s.host = messageEvents m ++ rest →
    ∃ t, s.RunsTo (m.length + 2) t ∧ t.st = .done ∧ t.cause = .none ∧ t.nblk.toNat = (m.length + 8) / 64 + 1 ∧
      finalState m = some t.h ∧ (∃ d, t.portDigest = some d ∧ digest m = some (portBytes d)) ∧
      t.AtBoundary ∧ t.host = rest

/-- 43_digest_output.md R187; 10_state.md R40: the same message, from any two states that can start one, gives the host the
same ports: nothing of an earlier message reaches a later digest. -/
def Obligations.NoLeakageBetweenMessages : Prop :=
  ∀ (s s' : State) (m : List Byte) (rest rest' : List HostEvent), s.AtBoundary → s'.AtBoundary →
    (s.st = .idle ∨ s.st = .done) → (s'.st = .idle ∨ s'.st = .done) → s.cause = .none → s'.cause = .none →
    m.length ≤ 2 ^ 61 - 1 → s.host = messageEvents m ++ rest → s'.host = messageEvents m ++ rest' →
    ∃ t t', s.RunsTo (m.length + 2) t ∧ s'.RunsTo (m.length + 2) t' ∧ t.observe = t'.observe

/-- 10_state.md R44: what V and W held before a step at a boundary reaches nothing but V and W: their unspecified reset values
are unobservable. -/
def Obligations.StaleWorkingRegistersReachNothing : Prop :=
  ∀ (s t : State) (v : Words8) (w : Words64), s.AtBoundary → step s = .next t →
    ∃ v' w', step { s with v := v, w := w } = .next { t with v := v', w := w' }
end

