-- ==== Sys2Proof/Laws/Memory.lean ====
section
/-! SUPPORT. The block buffer: a read after a write, and that every write keeps the canonical form. -/

namespace Sys2Proof.Machine

@[simp] theorem Memory.read_nil (a : Nat) : Memory.read [] a = none := rfl

theorem Memory.read_cons (k a : Nat) (y : Byte) (rest : Memory) :
    Memory.read ((k, y) :: rest) a = if a = k then some y else Memory.read rest a := by
  by_cases h : a = k
  · simp [Memory.read, List.lookup, h]
  · have hb : (a == k) = false := by simpa using h
    simp [Memory.read, List.lookup, h, hb]

theorem Memory.read_write_same (m : Memory) (a : Nat) (x : Byte) : (Memory.write m a x).read a = some x := by
  induction m with
  | nil => simp [Memory.write, Memory.read_cons]
  | cons c rest ih =>
    obtain ⟨k, y⟩ := c
    unfold Memory.write
    split
    · simp [Memory.read_cons]
    · split
      · simp [Memory.read_cons]
      · simp [Memory.read_cons, ih]; omega

theorem Memory.read_write_other (m : Memory) {a b : Nat} (x : Byte) (h : b ≠ a) :
    (Memory.write m a x).read b = Memory.read m b := by
  induction m with
  | nil => simp [Memory.write, Memory.read_cons, h]
  | cons c rest ih =>
    obtain ⟨k, y⟩ := c
    unfold Memory.write
    split
    · simp [Memory.read_cons, h]
    · split
      · subst k; simp [Memory.read_cons, h]
      · simp [Memory.read_cons, ih]

/-- A read after a write, at any index. -/
theorem Memory.read_write (m : Memory) (a b : Nat) (x : Byte) :
    (Memory.write m a x).read b = if b = a then some x else Memory.read m b := by
  split
  · subst b; exact Memory.read_write_same m a x
  · exact Memory.read_write_other m x ‹_›

/-- The canonical form, as a property of a list with a first cell. -/
theorem Memory.wf_cons {k : Nat} {y : Byte} {rest : Memory} :
    Memory.wf ((k, y) :: rest) = true ↔
      k < 64 ∧ Memory.wf rest = true ∧ ∀ c ∈ rest.head?, k < c.1 := by
  induction rest generalizing k y with
  | nil => simp [Memory.wf]
  | cons c rest ih =>
    obtain ⟨k', y'⟩ := c
    have h' := @ih k' y'
    simp only [Memory.wf, Bool.and_eq_true, decide_eq_true_eq, List.head?_cons, Option.mem_some_iff] at *
    constructor
    · rintro ⟨h, hw⟩
      refine ⟨?_, hw, ?_⟩
      · have := (h'.1 hw).1; omega
      · rintro c rfl; exact h
    · rintro ⟨_, hw, hc⟩
      exact ⟨hc _ rfl, hw⟩

theorem Memory.wf_write {m : Memory} {a : Nat} (x : Byte) (hm : Memory.wf m = true) (ha : a < 64) :
    Memory.wf (Memory.write m a x) = true := by
  induction m with
  | nil => simpa [Memory.write, Memory.wf] using ha
  | cons c rest ih =>
    obtain ⟨k, y⟩ := c
    obtain ⟨hk, hr, hh⟩ := Memory.wf_cons.1 hm
    unfold Memory.write
    split
    · exact Memory.wf_cons.2 ⟨ha, hm, by simpa using ‹a < k›⟩
    · split
      · subst k; exact Memory.wf_cons.2 ⟨hk, hr, hh⟩
      · refine Memory.wf_cons.2 ⟨hk, ih hr, ?_⟩
        intro c hc
        cases rest with
        | nil => simp [Memory.write] at hc; subst hc; simp; omega
        | cons d rest =>
          obtain ⟨k', y'⟩ := d
          unfold Memory.write at hc
          split at hc
          · simp at hc; subst hc; simp; omega
          · split at hc
            · simp at hc; subst hc; simp; omega
            · simp at hc; subst hc; simpa using hh

theorem Memory.wf_writeMany {m : Memory} {a : Nat} {xs : List Byte} (hm : Memory.wf m = true)
    (ha : a + xs.length ≤ 64) : Memory.wf (Memory.writeMany m a xs) = true := by
  induction xs generalizing m a with
  | nil => exact hm
  | cons x xs ih =>
    simp only [List.length_cons] at ha
    exact ih (Memory.wf_write x hm (by omega)) (by omega)

/-- `memWrite` answers the buffer with the bytes put in, canonical if the buffer was, exactly where they fit. -/
theorem memWrite_spec (m : Memory) (a : Nat) (xs : List Byte) :
    memWrite m a xs =
      if a + xs.length ≤ 64 then .ok (m.writeMany a xs) else .error .bufferIndexOutOfRange := rfl

theorem memWrite_wf {m m' : Memory} {a : Nat} {xs : List Byte} (hm : Memory.wf m = true)
    (h : memWrite m a xs = .ok m') : Memory.wf m' = true := by
  rw [memWrite_spec] at h
  split at h
  · cases h; exact Memory.wf_writeMany hm ‹_›
  · cases h

/-- A single byte at an index inside the buffer. -/
@[simp] theorem memWrite_byte (m : Memory) (o : BitVec 6) (x : Byte) :
    memWrite m o.toNat [x] = .ok (m.write o.toNat x) := by
  have := o.isLt
  rw [memWrite_spec, if_pos (by simp; omega)]
  rfl

/-- The bytes `readMany` answers are those stored, when all are there. -/
theorem Memory.readMany_of_read {m : Memory} {xs : List Byte} {a : Nat}
    (h : ∀ j (hj : j < xs.length), m.read (a + j) = some xs[j]) : m.readMany a xs.length = some xs := by
  induction xs generalizing a with
  | nil => rfl
  | cons x xs ih =>
    have h0 := h 0 (by simp)
    have ht : m.readMany (a + 1) xs.length = some xs := by
      apply ih
      intro j hj
      have := h (j + 1) (by simp; omega)
      simpa [Nat.add_assoc, Nat.add_comm 1] using this
    simp only [Nat.add_zero, List.getElem_cons_zero] at h0
    simp [Memory.readMany, h0, ht]

/-- Four bytes inside the buffer, all written. -/
theorem memRead_four {m : Memory} {a : Nat} {b0 b1 b2 b3 : Byte} (ha : a + 4 ≤ 64)
    (h0 : m.read a = some b0) (h1 : m.read (a + 1) = some b1) (h2 : m.read (a + 2) = some b2)
    (h3 : m.read (a + 3) = some b3) : memRead m a 4 = .ok [b0, b1, b2, b3] := by
  have hr : m.readMany a 4 = some [b0, b1, b2, b3] := by
    simp [Memory.readMany, h0, h1, h2, h3]
  rw [memRead, if_pos ha, hr]

end Sys2Proof.Machine
end

