-- ==== Sys2Proof/Laws/State.lean ====
section
/-! SUPPORT. One lemma per field per named update of the state, true by `rfl`, so that no proof unfolds a record update. -/

namespace Sys2Proof.Machine

/-! ## `State.setV` -/

@[simp] theorem State.setV_h (s : State) (x : Words8) : (s.setV x).h = s.h := rfl
@[simp] theorem State.setV_v (s : State) (x : Words8) : (s.setV x).v = x := rfl
@[simp] theorem State.setV_w (s : State) (x : Words8) : (s.setV x).w = s.w := rfl
@[simp] theorem State.setV_buf (s : State) (x : Words8) : (s.setV x).buf = s.buf := rfl
@[simp] theorem State.setV_dlen (s : State) (x : Words8) : (s.setV x).dlen = s.dlen := rfl
@[simp] theorem State.setV_cnt (s : State) (x : Words8) : (s.setV x).cnt = s.cnt := rfl
@[simp] theorem State.setV_nblk (s : State) (x : Words8) : (s.setV x).nblk = s.nblk := rfl
@[simp] theorem State.setV_st (s : State) (x : Words8) : (s.setV x).st = s.st := rfl
@[simp] theorem State.setV_cause (s : State) (x : Words8) : (s.setV x).cause = s.cause := rfl
@[simp] theorem State.setV_off (s : State) (x : Words8) : (s.setV x).off = s.off := rfl
@[simp] theorem State.setV_pp (s : State) (x : Words8) : (s.setV x).pp = s.pp := rfl
@[simp] theorem State.setV_li (s : State) (x : Words8) : (s.setV x).li = s.li := rfl
@[simp] theorem State.setV_ph (s : State) (x : Words8) : (s.setV x).ph = s.ph := rfl
@[simp] theorem State.setV_t (s : State) (x : Words8) : (s.setV x).t = s.t := rfl
@[simp] theorem State.setV_cmd (s : State) (x : Words8) : (s.setV x).cmd = s.cmd := rfl
@[simp] theorem State.setV_busy (s : State) (x : Words8) : (s.setV x).busy = s.busy := rfl
@[simp] theorem State.setV_host (s : State) (x : Words8) : (s.setV x).host = s.host := rfl

/-! ## `State.setH` -/

@[simp] theorem State.setH_h (s : State) (x : Words8) : (s.setH x).h = x := rfl
@[simp] theorem State.setH_v (s : State) (x : Words8) : (s.setH x).v = s.v := rfl
@[simp] theorem State.setH_w (s : State) (x : Words8) : (s.setH x).w = s.w := rfl
@[simp] theorem State.setH_buf (s : State) (x : Words8) : (s.setH x).buf = s.buf := rfl
@[simp] theorem State.setH_dlen (s : State) (x : Words8) : (s.setH x).dlen = s.dlen := rfl
@[simp] theorem State.setH_cnt (s : State) (x : Words8) : (s.setH x).cnt = s.cnt := rfl
@[simp] theorem State.setH_nblk (s : State) (x : Words8) : (s.setH x).nblk = s.nblk := rfl
@[simp] theorem State.setH_st (s : State) (x : Words8) : (s.setH x).st = s.st := rfl
@[simp] theorem State.setH_cause (s : State) (x : Words8) : (s.setH x).cause = s.cause := rfl
@[simp] theorem State.setH_off (s : State) (x : Words8) : (s.setH x).off = s.off := rfl
@[simp] theorem State.setH_pp (s : State) (x : Words8) : (s.setH x).pp = s.pp := rfl
@[simp] theorem State.setH_li (s : State) (x : Words8) : (s.setH x).li = s.li := rfl
@[simp] theorem State.setH_ph (s : State) (x : Words8) : (s.setH x).ph = s.ph := rfl
@[simp] theorem State.setH_t (s : State) (x : Words8) : (s.setH x).t = s.t := rfl
@[simp] theorem State.setH_cmd (s : State) (x : Words8) : (s.setH x).cmd = s.cmd := rfl
@[simp] theorem State.setH_busy (s : State) (x : Words8) : (s.setH x).busy = s.busy := rfl
@[simp] theorem State.setH_host (s : State) (x : Words8) : (s.setH x).host = s.host := rfl

/-! ## `State.writeW` -/

@[simp] theorem State.writeW_h (s : State) (i : BitVec 6) (x : Word) : (s.writeW i x).h = s.h := rfl
@[simp] theorem State.writeW_v (s : State) (i : BitVec 6) (x : Word) : (s.writeW i x).v = s.v := rfl
@[simp] theorem State.writeW_w (s : State) (i : BitVec 6) (x : Word) : (s.writeW i x).w = setWord s.w i x := rfl
@[simp] theorem State.writeW_buf (s : State) (i : BitVec 6) (x : Word) : (s.writeW i x).buf = s.buf := rfl
@[simp] theorem State.writeW_dlen (s : State) (i : BitVec 6) (x : Word) : (s.writeW i x).dlen = s.dlen := rfl
@[simp] theorem State.writeW_cnt (s : State) (i : BitVec 6) (x : Word) : (s.writeW i x).cnt = s.cnt := rfl
@[simp] theorem State.writeW_nblk (s : State) (i : BitVec 6) (x : Word) : (s.writeW i x).nblk = s.nblk := rfl
@[simp] theorem State.writeW_st (s : State) (i : BitVec 6) (x : Word) : (s.writeW i x).st = s.st := rfl
@[simp] theorem State.writeW_cause (s : State) (i : BitVec 6) (x : Word) : (s.writeW i x).cause = s.cause := rfl
@[simp] theorem State.writeW_off (s : State) (i : BitVec 6) (x : Word) : (s.writeW i x).off = s.off := rfl
@[simp] theorem State.writeW_pp (s : State) (i : BitVec 6) (x : Word) : (s.writeW i x).pp = s.pp := rfl
@[simp] theorem State.writeW_li (s : State) (i : BitVec 6) (x : Word) : (s.writeW i x).li = s.li := rfl
@[simp] theorem State.writeW_ph (s : State) (i : BitVec 6) (x : Word) : (s.writeW i x).ph = s.ph := rfl
@[simp] theorem State.writeW_t (s : State) (i : BitVec 6) (x : Word) : (s.writeW i x).t = s.t := rfl
@[simp] theorem State.writeW_cmd (s : State) (i : BitVec 6) (x : Word) : (s.writeW i x).cmd = s.cmd := rfl
@[simp] theorem State.writeW_busy (s : State) (i : BitVec 6) (x : Word) : (s.writeW i x).busy = s.busy := rfl
@[simp] theorem State.writeW_host (s : State) (i : BitVec 6) (x : Word) : (s.writeW i x).host = s.host := rfl

/-! ## `State.setBuf` -/

@[simp] theorem State.setBuf_h (s : State) (m : Memory) : (s.setBuf m).h = s.h := rfl
@[simp] theorem State.setBuf_v (s : State) (m : Memory) : (s.setBuf m).v = s.v := rfl
@[simp] theorem State.setBuf_w (s : State) (m : Memory) : (s.setBuf m).w = s.w := rfl
@[simp] theorem State.setBuf_buf (s : State) (m : Memory) : (s.setBuf m).buf = m := rfl
@[simp] theorem State.setBuf_dlen (s : State) (m : Memory) : (s.setBuf m).dlen = s.dlen := rfl
@[simp] theorem State.setBuf_cnt (s : State) (m : Memory) : (s.setBuf m).cnt = s.cnt := rfl
@[simp] theorem State.setBuf_nblk (s : State) (m : Memory) : (s.setBuf m).nblk = s.nblk := rfl
@[simp] theorem State.setBuf_st (s : State) (m : Memory) : (s.setBuf m).st = s.st := rfl
@[simp] theorem State.setBuf_cause (s : State) (m : Memory) : (s.setBuf m).cause = s.cause := rfl
@[simp] theorem State.setBuf_off (s : State) (m : Memory) : (s.setBuf m).off = s.off := rfl
@[simp] theorem State.setBuf_pp (s : State) (m : Memory) : (s.setBuf m).pp = s.pp := rfl
@[simp] theorem State.setBuf_li (s : State) (m : Memory) : (s.setBuf m).li = s.li := rfl
@[simp] theorem State.setBuf_ph (s : State) (m : Memory) : (s.setBuf m).ph = s.ph := rfl
@[simp] theorem State.setBuf_t (s : State) (m : Memory) : (s.setBuf m).t = s.t := rfl
@[simp] theorem State.setBuf_cmd (s : State) (m : Memory) : (s.setBuf m).cmd = s.cmd := rfl
@[simp] theorem State.setBuf_busy (s : State) (m : Memory) : (s.setBuf m).busy = s.busy := rfl
@[simp] theorem State.setBuf_host (s : State) (m : Memory) : (s.setBuf m).host = s.host := rfl

/-! ## `State.setOff` -/

@[simp] theorem State.setOff_h (s : State) (o : BitVec 6) : (s.setOff o).h = s.h := rfl
@[simp] theorem State.setOff_v (s : State) (o : BitVec 6) : (s.setOff o).v = s.v := rfl
@[simp] theorem State.setOff_w (s : State) (o : BitVec 6) : (s.setOff o).w = s.w := rfl
@[simp] theorem State.setOff_buf (s : State) (o : BitVec 6) : (s.setOff o).buf = s.buf := rfl
@[simp] theorem State.setOff_dlen (s : State) (o : BitVec 6) : (s.setOff o).dlen = s.dlen := rfl
@[simp] theorem State.setOff_cnt (s : State) (o : BitVec 6) : (s.setOff o).cnt = s.cnt := rfl
@[simp] theorem State.setOff_nblk (s : State) (o : BitVec 6) : (s.setOff o).nblk = s.nblk := rfl
@[simp] theorem State.setOff_st (s : State) (o : BitVec 6) : (s.setOff o).st = s.st := rfl
@[simp] theorem State.setOff_cause (s : State) (o : BitVec 6) : (s.setOff o).cause = s.cause := rfl
@[simp] theorem State.setOff_off (s : State) (o : BitVec 6) : (s.setOff o).off = o := rfl
@[simp] theorem State.setOff_pp (s : State) (o : BitVec 6) : (s.setOff o).pp = s.pp := rfl
@[simp] theorem State.setOff_li (s : State) (o : BitVec 6) : (s.setOff o).li = s.li := rfl
@[simp] theorem State.setOff_ph (s : State) (o : BitVec 6) : (s.setOff o).ph = s.ph := rfl
@[simp] theorem State.setOff_t (s : State) (o : BitVec 6) : (s.setOff o).t = s.t := rfl
@[simp] theorem State.setOff_cmd (s : State) (o : BitVec 6) : (s.setOff o).cmd = s.cmd := rfl
@[simp] theorem State.setOff_busy (s : State) (o : BitVec 6) : (s.setOff o).busy = s.busy := rfl
@[simp] theorem State.setOff_host (s : State) (o : BitVec 6) : (s.setOff o).host = s.host := rfl

/-! ## `State.engineAt` -/

@[simp] theorem State.engineAt_h (s : State) (p : BlockPhase) (x : BitVec 6) : (s.engineAt p x).h = s.h := rfl
@[simp] theorem State.engineAt_v (s : State) (p : BlockPhase) (x : BitVec 6) : (s.engineAt p x).v = s.v := rfl
@[simp] theorem State.engineAt_w (s : State) (p : BlockPhase) (x : BitVec 6) : (s.engineAt p x).w = s.w := rfl
@[simp] theorem State.engineAt_buf (s : State) (p : BlockPhase) (x : BitVec 6) : (s.engineAt p x).buf = s.buf := rfl
@[simp] theorem State.engineAt_dlen (s : State) (p : BlockPhase) (x : BitVec 6) : (s.engineAt p x).dlen = s.dlen := rfl
@[simp] theorem State.engineAt_cnt (s : State) (p : BlockPhase) (x : BitVec 6) : (s.engineAt p x).cnt = s.cnt := rfl
@[simp] theorem State.engineAt_nblk (s : State) (p : BlockPhase) (x : BitVec 6) : (s.engineAt p x).nblk = s.nblk := rfl
@[simp] theorem State.engineAt_st (s : State) (p : BlockPhase) (x : BitVec 6) : (s.engineAt p x).st = s.st := rfl
@[simp] theorem State.engineAt_cause (s : State) (p : BlockPhase) (x : BitVec 6) : (s.engineAt p x).cause = s.cause := rfl
@[simp] theorem State.engineAt_off (s : State) (p : BlockPhase) (x : BitVec 6) : (s.engineAt p x).off = s.off := rfl
@[simp] theorem State.engineAt_pp (s : State) (p : BlockPhase) (x : BitVec 6) : (s.engineAt p x).pp = s.pp := rfl
@[simp] theorem State.engineAt_li (s : State) (p : BlockPhase) (x : BitVec 6) : (s.engineAt p x).li = s.li := rfl
@[simp] theorem State.engineAt_ph (s : State) (p : BlockPhase) (x : BitVec 6) : (s.engineAt p x).ph = p := rfl
@[simp] theorem State.engineAt_t (s : State) (p : BlockPhase) (x : BitVec 6) : (s.engineAt p x).t = x := rfl
@[simp] theorem State.engineAt_cmd (s : State) (p : BlockPhase) (x : BitVec 6) : (s.engineAt p x).cmd = s.cmd := rfl
@[simp] theorem State.engineAt_busy (s : State) (p : BlockPhase) (x : BitVec 6) : (s.engineAt p x).busy = s.busy := rfl
@[simp] theorem State.engineAt_host (s : State) (p : BlockPhase) (x : BitVec 6) : (s.engineAt p x).host = s.host := rfl

/-! ## `State.padderAt` -/

@[simp] theorem State.padderAt_h (s : State) (p : PadPhase) (x : BitVec 3) : (s.padderAt p x).h = s.h := rfl
@[simp] theorem State.padderAt_v (s : State) (p : PadPhase) (x : BitVec 3) : (s.padderAt p x).v = s.v := rfl
@[simp] theorem State.padderAt_w (s : State) (p : PadPhase) (x : BitVec 3) : (s.padderAt p x).w = s.w := rfl
@[simp] theorem State.padderAt_buf (s : State) (p : PadPhase) (x : BitVec 3) : (s.padderAt p x).buf = s.buf := rfl
@[simp] theorem State.padderAt_dlen (s : State) (p : PadPhase) (x : BitVec 3) : (s.padderAt p x).dlen = s.dlen := rfl
@[simp] theorem State.padderAt_cnt (s : State) (p : PadPhase) (x : BitVec 3) : (s.padderAt p x).cnt = s.cnt := rfl
@[simp] theorem State.padderAt_nblk (s : State) (p : PadPhase) (x : BitVec 3) : (s.padderAt p x).nblk = s.nblk := rfl
@[simp] theorem State.padderAt_st (s : State) (p : PadPhase) (x : BitVec 3) : (s.padderAt p x).st = s.st := rfl
@[simp] theorem State.padderAt_cause (s : State) (p : PadPhase) (x : BitVec 3) : (s.padderAt p x).cause = s.cause := rfl
@[simp] theorem State.padderAt_off (s : State) (p : PadPhase) (x : BitVec 3) : (s.padderAt p x).off = s.off := rfl
@[simp] theorem State.padderAt_pp (s : State) (p : PadPhase) (x : BitVec 3) : (s.padderAt p x).pp = p := rfl
@[simp] theorem State.padderAt_li (s : State) (p : PadPhase) (x : BitVec 3) : (s.padderAt p x).li = x := rfl
@[simp] theorem State.padderAt_ph (s : State) (p : PadPhase) (x : BitVec 3) : (s.padderAt p x).ph = s.ph := rfl
@[simp] theorem State.padderAt_t (s : State) (p : PadPhase) (x : BitVec 3) : (s.padderAt p x).t = s.t := rfl
@[simp] theorem State.padderAt_cmd (s : State) (p : PadPhase) (x : BitVec 3) : (s.padderAt p x).cmd = s.cmd := rfl
@[simp] theorem State.padderAt_busy (s : State) (p : PadPhase) (x : BitVec 3) : (s.padderAt p x).busy = s.busy := rfl
@[simp] theorem State.padderAt_host (s : State) (p : PadPhase) (x : BitVec 3) : (s.padderAt p x).host = s.host := rfl

/-! ## `State.countByte` -/

@[simp] theorem State.countByte_h (s : State) : s.countByte.h = s.h := rfl
@[simp] theorem State.countByte_v (s : State) : s.countByte.v = s.v := rfl
@[simp] theorem State.countByte_w (s : State) : s.countByte.w = s.w := rfl
@[simp] theorem State.countByte_buf (s : State) : s.countByte.buf = s.buf := rfl
@[simp] theorem State.countByte_dlen (s : State) : s.countByte.dlen = s.dlen := rfl
@[simp] theorem State.countByte_cnt (s : State) : s.countByte.cnt = s.cnt + 1#64 := rfl
@[simp] theorem State.countByte_nblk (s : State) : s.countByte.nblk = s.nblk := rfl
@[simp] theorem State.countByte_st (s : State) : s.countByte.st = s.st := rfl
@[simp] theorem State.countByte_cause (s : State) : s.countByte.cause = s.cause := rfl
@[simp] theorem State.countByte_off (s : State) : s.countByte.off = s.off := rfl
@[simp] theorem State.countByte_pp (s : State) : s.countByte.pp = s.pp := rfl
@[simp] theorem State.countByte_li (s : State) : s.countByte.li = s.li := rfl
@[simp] theorem State.countByte_ph (s : State) : s.countByte.ph = s.ph := rfl
@[simp] theorem State.countByte_t (s : State) : s.countByte.t = s.t := rfl
@[simp] theorem State.countByte_cmd (s : State) : s.countByte.cmd = s.cmd := rfl
@[simp] theorem State.countByte_busy (s : State) : s.countByte.busy = s.busy := rfl
@[simp] theorem State.countByte_host (s : State) : s.countByte.host = s.host := rfl

/-! ## `State.countBlock` -/

@[simp] theorem State.countBlock_h (s : State) : s.countBlock.h = s.h := rfl
@[simp] theorem State.countBlock_v (s : State) : s.countBlock.v = s.v := rfl
@[simp] theorem State.countBlock_w (s : State) : s.countBlock.w = s.w := rfl
@[simp] theorem State.countBlock_buf (s : State) : s.countBlock.buf = s.buf := rfl
@[simp] theorem State.countBlock_dlen (s : State) : s.countBlock.dlen = s.dlen := rfl
@[simp] theorem State.countBlock_cnt (s : State) : s.countBlock.cnt = s.cnt := rfl
@[simp] theorem State.countBlock_nblk (s : State) : s.countBlock.nblk = s.nblk + 1#64 := rfl
@[simp] theorem State.countBlock_st (s : State) : s.countBlock.st = s.st := rfl
@[simp] theorem State.countBlock_cause (s : State) : s.countBlock.cause = s.cause := rfl
@[simp] theorem State.countBlock_off (s : State) : s.countBlock.off = s.off := rfl
@[simp] theorem State.countBlock_pp (s : State) : s.countBlock.pp = s.pp := rfl
@[simp] theorem State.countBlock_li (s : State) : s.countBlock.li = s.li := rfl
@[simp] theorem State.countBlock_ph (s : State) : s.countBlock.ph = s.ph := rfl
@[simp] theorem State.countBlock_t (s : State) : s.countBlock.t = s.t := rfl
@[simp] theorem State.countBlock_cmd (s : State) : s.countBlock.cmd = s.cmd := rfl
@[simp] theorem State.countBlock_busy (s : State) : s.countBlock.busy = s.busy := rfl
@[simp] theorem State.countBlock_host (s : State) : s.countBlock.host = s.host := rfl

/-! ## `State.finish` -/

@[simp] theorem State.finish_h (s : State) : s.finish.h = s.h := rfl
@[simp] theorem State.finish_v (s : State) : s.finish.v = s.v := rfl
@[simp] theorem State.finish_w (s : State) : s.finish.w = s.w := rfl
@[simp] theorem State.finish_buf (s : State) : s.finish.buf = s.buf := rfl
@[simp] theorem State.finish_dlen (s : State) : s.finish.dlen = s.dlen := rfl
@[simp] theorem State.finish_cnt (s : State) : s.finish.cnt = s.cnt := rfl
@[simp] theorem State.finish_nblk (s : State) : s.finish.nblk = s.nblk := rfl
@[simp] theorem State.finish_st (s : State) : s.finish.st = .done := rfl
@[simp] theorem State.finish_cause (s : State) : s.finish.cause = s.cause := rfl
@[simp] theorem State.finish_off (s : State) : s.finish.off = s.off := rfl
@[simp] theorem State.finish_pp (s : State) : s.finish.pp = s.pp := rfl
@[simp] theorem State.finish_li (s : State) : s.finish.li = s.li := rfl
@[simp] theorem State.finish_ph (s : State) : s.finish.ph = s.ph := rfl
@[simp] theorem State.finish_t (s : State) : s.finish.t = s.t := rfl
@[simp] theorem State.finish_cmd (s : State) : s.finish.cmd = s.cmd := rfl
@[simp] theorem State.finish_busy (s : State) : s.finish.busy = s.busy := rfl
@[simp] theorem State.finish_host (s : State) : s.finish.host = s.host := rfl

/-! ## `State.setBusy` -/

@[simp] theorem State.setBusy_h (s : State) (x : Bool) : (s.setBusy x).h = s.h := rfl
@[simp] theorem State.setBusy_v (s : State) (x : Bool) : (s.setBusy x).v = s.v := rfl
@[simp] theorem State.setBusy_w (s : State) (x : Bool) : (s.setBusy x).w = s.w := rfl
@[simp] theorem State.setBusy_buf (s : State) (x : Bool) : (s.setBusy x).buf = s.buf := rfl
@[simp] theorem State.setBusy_dlen (s : State) (x : Bool) : (s.setBusy x).dlen = s.dlen := rfl
@[simp] theorem State.setBusy_cnt (s : State) (x : Bool) : (s.setBusy x).cnt = s.cnt := rfl
@[simp] theorem State.setBusy_nblk (s : State) (x : Bool) : (s.setBusy x).nblk = s.nblk := rfl
@[simp] theorem State.setBusy_st (s : State) (x : Bool) : (s.setBusy x).st = s.st := rfl
@[simp] theorem State.setBusy_cause (s : State) (x : Bool) : (s.setBusy x).cause = s.cause := rfl
@[simp] theorem State.setBusy_off (s : State) (x : Bool) : (s.setBusy x).off = s.off := rfl
@[simp] theorem State.setBusy_pp (s : State) (x : Bool) : (s.setBusy x).pp = s.pp := rfl
@[simp] theorem State.setBusy_li (s : State) (x : Bool) : (s.setBusy x).li = s.li := rfl
@[simp] theorem State.setBusy_ph (s : State) (x : Bool) : (s.setBusy x).ph = s.ph := rfl
@[simp] theorem State.setBusy_t (s : State) (x : Bool) : (s.setBusy x).t = s.t := rfl
@[simp] theorem State.setBusy_cmd (s : State) (x : Bool) : (s.setBusy x).cmd = s.cmd := rfl
@[simp] theorem State.setBusy_busy (s : State) (x : Bool) : (s.setBusy x).busy = x := rfl
@[simp] theorem State.setBusy_host (s : State) (x : Bool) : (s.setBusy x).host = s.host := rfl

/-! ## `State.openMessage` -/

@[simp] theorem State.openMessage_h (s : State) (x : Words8) (l : DWord) : (s.openMessage x l).h = x := rfl
@[simp] theorem State.openMessage_v (s : State) (x : Words8) (l : DWord) : (s.openMessage x l).v = s.v := rfl
@[simp] theorem State.openMessage_w (s : State) (x : Words8) (l : DWord) : (s.openMessage x l).w = s.w := rfl
@[simp] theorem State.openMessage_buf (s : State) (x : Words8) (l : DWord) : (s.openMessage x l).buf = s.buf := rfl
@[simp] theorem State.openMessage_dlen (s : State) (x : Words8) (l : DWord) : (s.openMessage x l).dlen = l := rfl
@[simp] theorem State.openMessage_cnt (s : State) (x : Words8) (l : DWord) : (s.openMessage x l).cnt = 0#64 := rfl
@[simp] theorem State.openMessage_nblk (s : State) (x : Words8) (l : DWord) : (s.openMessage x l).nblk = 0#64 := rfl
@[simp] theorem State.openMessage_st (s : State) (x : Words8) (l : DWord) : (s.openMessage x l).st = .absorb := rfl
@[simp] theorem State.openMessage_cause (s : State) (x : Words8) (l : DWord) : (s.openMessage x l).cause = s.cause := rfl
@[simp] theorem State.openMessage_off (s : State) (x : Words8) (l : DWord) : (s.openMessage x l).off = 0#6 := rfl
@[simp] theorem State.openMessage_pp (s : State) (x : Words8) (l : DWord) : (s.openMessage x l).pp = s.pp := rfl
@[simp] theorem State.openMessage_li (s : State) (x : Words8) (l : DWord) : (s.openMessage x l).li = s.li := rfl
@[simp] theorem State.openMessage_ph (s : State) (x : Words8) (l : DWord) : (s.openMessage x l).ph = s.ph := rfl
@[simp] theorem State.openMessage_t (s : State) (x : Words8) (l : DWord) : (s.openMessage x l).t = s.t := rfl
@[simp] theorem State.openMessage_cmd (s : State) (x : Words8) (l : DWord) : (s.openMessage x l).cmd = s.cmd := rfl
@[simp] theorem State.openMessage_busy (s : State) (x : Words8) (l : DWord) : (s.openMessage x l).busy = s.busy := rfl
@[simp] theorem State.openMessage_host (s : State) (x : Words8) (l : DWord) : (s.openMessage x l).host = s.host := rfl

/-! ## `State.accept` -/

@[simp] theorem State.accept_h (s : State) (x : BitVec 72) (r : List HostEvent) : (s.accept x r).h = s.h := rfl
@[simp] theorem State.accept_v (s : State) (x : BitVec 72) (r : List HostEvent) : (s.accept x r).v = s.v := rfl
@[simp] theorem State.accept_w (s : State) (x : BitVec 72) (r : List HostEvent) : (s.accept x r).w = s.w := rfl
@[simp] theorem State.accept_buf (s : State) (x : BitVec 72) (r : List HostEvent) : (s.accept x r).buf = s.buf := rfl
@[simp] theorem State.accept_dlen (s : State) (x : BitVec 72) (r : List HostEvent) : (s.accept x r).dlen = s.dlen := rfl
@[simp] theorem State.accept_cnt (s : State) (x : BitVec 72) (r : List HostEvent) : (s.accept x r).cnt = s.cnt := rfl
@[simp] theorem State.accept_nblk (s : State) (x : BitVec 72) (r : List HostEvent) : (s.accept x r).nblk = s.nblk := rfl
@[simp] theorem State.accept_st (s : State) (x : BitVec 72) (r : List HostEvent) : (s.accept x r).st = s.st := rfl
@[simp] theorem State.accept_cause (s : State) (x : BitVec 72) (r : List HostEvent) : (s.accept x r).cause = s.cause := rfl
@[simp] theorem State.accept_off (s : State) (x : BitVec 72) (r : List HostEvent) : (s.accept x r).off = s.off := rfl
@[simp] theorem State.accept_pp (s : State) (x : BitVec 72) (r : List HostEvent) : (s.accept x r).pp = s.pp := rfl
@[simp] theorem State.accept_li (s : State) (x : BitVec 72) (r : List HostEvent) : (s.accept x r).li = s.li := rfl
@[simp] theorem State.accept_ph (s : State) (x : BitVec 72) (r : List HostEvent) : (s.accept x r).ph = s.ph := rfl
@[simp] theorem State.accept_t (s : State) (x : BitVec 72) (r : List HostEvent) : (s.accept x r).t = s.t := rfl
@[simp] theorem State.accept_cmd (s : State) (x : BitVec 72) (r : List HostEvent) : (s.accept x r).cmd = x := rfl
@[simp] theorem State.accept_busy (s : State) (x : BitVec 72) (r : List HostEvent) : (s.accept x r).busy = s.busy := rfl
@[simp] theorem State.accept_host (s : State) (x : BitVec 72) (r : List HostEvent) : (s.accept x r).host = r := rfl

/-! ## `State.enterFault` -/

@[simp] theorem State.enterFault_h (s : State) (c : Cause) : (s.enterFault c).h = s.h := rfl
@[simp] theorem State.enterFault_v (s : State) (c : Cause) : (s.enterFault c).v = s.v := rfl
@[simp] theorem State.enterFault_w (s : State) (c : Cause) : (s.enterFault c).w = s.w := rfl
@[simp] theorem State.enterFault_buf (s : State) (c : Cause) : (s.enterFault c).buf = s.buf := rfl
@[simp] theorem State.enterFault_dlen (s : State) (c : Cause) : (s.enterFault c).dlen = s.dlen := rfl
@[simp] theorem State.enterFault_cnt (s : State) (c : Cause) : (s.enterFault c).cnt = s.cnt := rfl
@[simp] theorem State.enterFault_nblk (s : State) (c : Cause) : (s.enterFault c).nblk = s.nblk := rfl
@[simp] theorem State.enterFault_st (s : State) (c : Cause) : (s.enterFault c).st = .fault := rfl
@[simp] theorem State.enterFault_cause (s : State) (c : Cause) : (s.enterFault c).cause = c := rfl
@[simp] theorem State.enterFault_off (s : State) (c : Cause) : (s.enterFault c).off = s.off := rfl
@[simp] theorem State.enterFault_pp (s : State) (c : Cause) : (s.enterFault c).pp = s.pp := rfl
@[simp] theorem State.enterFault_li (s : State) (c : Cause) : (s.enterFault c).li = s.li := rfl
@[simp] theorem State.enterFault_ph (s : State) (c : Cause) : (s.enterFault c).ph = s.ph := rfl
@[simp] theorem State.enterFault_t (s : State) (c : Cause) : (s.enterFault c).t = s.t := rfl
@[simp] theorem State.enterFault_cmd (s : State) (c : Cause) : (s.enterFault c).cmd = s.cmd := rfl
@[simp] theorem State.enterFault_busy (s : State) (c : Cause) : (s.enterFault c).busy = s.busy := rfl
@[simp] theorem State.enterFault_host (s : State) (c : Cause) : (s.enterFault c).host = s.host := rfl

/-! ## `State.rst` -/

@[simp] theorem State.rst_h (s : State) (r : List HostEvent) : (s.rst r).h = State.reset.h := rfl
@[simp] theorem State.rst_v (s : State) (r : List HostEvent) : (s.rst r).v = State.reset.v := rfl
@[simp] theorem State.rst_w (s : State) (r : List HostEvent) : (s.rst r).w = State.reset.w := rfl
@[simp] theorem State.rst_buf (s : State) (r : List HostEvent) : (s.rst r).buf = State.reset.buf := rfl
@[simp] theorem State.rst_dlen (s : State) (r : List HostEvent) : (s.rst r).dlen = State.reset.dlen := rfl
@[simp] theorem State.rst_cnt (s : State) (r : List HostEvent) : (s.rst r).cnt = State.reset.cnt := rfl
@[simp] theorem State.rst_nblk (s : State) (r : List HostEvent) : (s.rst r).nblk = State.reset.nblk := rfl
@[simp] theorem State.rst_st (s : State) (r : List HostEvent) : (s.rst r).st = State.reset.st := rfl
@[simp] theorem State.rst_cause (s : State) (r : List HostEvent) : (s.rst r).cause = State.reset.cause := rfl
@[simp] theorem State.rst_off (s : State) (r : List HostEvent) : (s.rst r).off = State.reset.off := rfl
@[simp] theorem State.rst_pp (s : State) (r : List HostEvent) : (s.rst r).pp = State.reset.pp := rfl
@[simp] theorem State.rst_li (s : State) (r : List HostEvent) : (s.rst r).li = State.reset.li := rfl
@[simp] theorem State.rst_ph (s : State) (r : List HostEvent) : (s.rst r).ph = State.reset.ph := rfl
@[simp] theorem State.rst_t (s : State) (r : List HostEvent) : (s.rst r).t = State.reset.t := rfl
@[simp] theorem State.rst_cmd (s : State) (r : List HostEvent) : (s.rst r).cmd = s.cmd := rfl
@[simp] theorem State.rst_busy (s : State) (r : List HostEvent) : (s.rst r).busy = State.reset.busy := rfl
@[simp] theorem State.rst_host (s : State) (r : List HostEvent) : (s.rst r).host = r := rfl

end Sys2Proof.Machine
end

