-- ==== Sys2Proof/Laws/Outcome.lean ====
section
/-! SUPPORT. Sequencing: what `andThen` does with each outcome, and what a next state of it says of its parts. -/

namespace Sys2Proof.Machine

/- These three are not given by bare `rfl` on purpose: `simp` would then leave the rewrite to the kernel as a conversion, and
the kernel would try to run the loops on either side. -/
@[simp] theorem andThen_next (s : State) (f : State → Result) : andThen (.next s) f = f s := id rfl
@[simp] theorem andThen_fault (e : Fault) (f : State → Result) : andThen (.fault e) f = .fault e := id rfl
@[simp] theorem andThen_refused (e : Refusal) (f : State → Result) : andThen (.refused e) f = .refused e := id rfl

theorem andThen_eq_next {r : Result} {f : State → Result} {t : State} :
    andThen r f = .next t ↔ ∃ s, r = .next s ∧ f s = .next t := by
  cases r <;> simp

theorem andThen_assoc (r : Result) (f g : State → Result) :
    andThen (andThen r f) g = andThen r fun s => andThen (f s) g := by
  cases r <;> rfl

end Sys2Proof.Machine
end

