-- ==== Sys2Proof/Laws/Words.lean ====
section
/-! SUPPORT. The schedule's words by index, and the primitive operations on words bit by bit. -/

namespace Sys2Proof.Machine

theorem getWord_setWord (w : Words64) (i j : BitVec 6) (x : Word) :
    getWord (setWord w i x) j = if i = j then x else getWord w j := by
  unfold getWord setWord
  rw [Vector.getElem_set]
  simp [BitVec.toNat_inj]

@[simp] theorem getWord_setWord_same (w : Words64) (i : BitVec 6) (x : Word) :
    getWord (setWord w i x) i = x := by
  simp [getWord_setWord]

theorem getWord_setWord_other (w : Words64) {i j : BitVec 6} (x : Word) (h : i ≠ j) :
    getWord (setWord w i x) j = getWord w j := by
  simp [getWord_setWord, h]

/-- Two schedules with the same words at every index are equal. -/
theorem words64_ext {w w' : Words64} (h : ∀ i, getWord w i = getWord w' i) : w = w' := by
  apply Vector.ext
  intro i hi
  have := h (BitVec.ofNat 6 i)
  simpa [getWord, BitVec.toNat_ofNat, Nat.mod_eq_of_lt hi] using this

/-- `rotr` is the rotation right within 32 bits (41_schedule.md R130). -/
theorem rotr_eq_rotateRight (x : Word) (n : Nat) (h : 0 < n ∧ n < 32) : rotr x n h = x.rotateRight n := by
  unfold rotr
  rw [BitVec.rotateRight_def, Nat.mod_eq_of_lt h.2]

end Sys2Proof.Machine
end

