-- ==== Sys2Proof/Laws/Schedule.lean ====
section
/-! SUPPORT. LDW and EXP one at a time, then the two loops of BLK that build the schedule: afterwards W is `Schedule(B)`
whatever it held before. -/

namespace Sys2Proof.Machine

/-- LDW, when the four bytes are there (41_schedule.md R136). -/
theorem execLdw_next {t : BitVec 6} {s : State} {b0 b1 b2 b3 : Byte} (ht : t.toNat < 16)
    (h0 : s.buf.read (4 * t.toNat) = some b0) (h1 : s.buf.read (4 * t.toNat + 1) = some b1)
    (h2 : s.buf.read (4 * t.toNat + 2) = some b2) (h3 : s.buf.read (4 * t.toNat + 3) = some b3) :
    execLdw t s = .next (s.writeW t (be32 b0 b1 b2 b3)) := by
  rw [execLdw, if_pos ht, memRead_four (by omega) h0 h1 h2 h3]
  rfl

/-- The first 16 words that a block loads. -/
theorem getWord_loadedWords (b : Block) (i : BitVec 6) (h : i.toNat < 16) :
    getWord (loadedWords b) i = blockWord b i.toNat h := by
  simp [getWord, loadedWords, h]

/-- LDW from a full buffer. -/
theorem execLdw_block {t : BitVec 6} {s : State} {b : Block} (ht : t.toNat < 16) (hb : s.buf.Holds b) :
    execLdw t s = .next (s.writeW t (getWord (loadedWords b) t)) := by
  rw [getWord_loadedWords b t ht]
  exact execLdw_next ht (hb _ (by omega)) (hb _ (by omega)) (hb _ (by omega)) (hb _ (by omega))

/-- All that LDW can change. -/
theorem execLdw_eq_next {i : BitVec 6} {s u : State} (h : execLdw i s = .next u) :
    i.toNat < 16 ∧ ∃ x, u = s.writeW i x := by
  unfold execLdw at h
  split at h
  · split at h
    · cases h; exact ⟨‹_›, _, rfl⟩
    · cases h
  · cases h

/-- EXP in its range (R137). -/
theorem execExp_next {t : BitVec 6} {s : State} (ht : 16 ≤ t.toNat) :
    execExp t s = .next (s.writeW t (expandedWord s.w t)) := if_pos ht

/-- All that EXP can change. -/
theorem execExp_eq_next {i : BitVec 6} {s u : State} (h : execExp i s = .next u) :
    16 ≤ i.toNat ∧ u = s.writeW i (expandedWord s.w i) := by
  unfold execExp at h
  split at h
  · cases h; exact ⟨‹_›, rfl⟩
  · cases h

/-- EXP reads only words below its index. -/
theorem expandedWord_congr {w w' : Words64} {t : BitVec 6} (ht : 16 ≤ t.toNat)
    (h : ∀ i, i.toNat < t.toNat → getWord w i = getWord w' i) : expandedWord w t = expandedWord w' t := by
  unfold expandedWord
  rw [h (t - 16#6) (by bv_omega), h (t - 15#6) (by bv_omega), h (t - 7#6) (by bv_omega), h (t - 2#6) (by bv_omega)]

theorem schedule_eq (b : Block) : schedule b = (List.range' 16 48).foldl expandStep (loadedWords b) := by
  unfold schedule; with_reducible rfl

/-- The expansion depends on the first 16 words only, and fixes all below the index it has reached. -/
theorem expand_congr {w w' : Words64} {n k : Nat} (hk : 16 ≤ k) (hn : k + n ≤ 64)
    (h : ∀ i : BitVec 6, i.toNat < k → getWord w i = getWord w' i) (i : BitVec 6) (hi : i.toNat < k + n) :
    getWord ((List.range' k n).foldl expandStep w) i = getWord ((List.range' k n).foldl expandStep w') i := by
  induction n generalizing k w w' with
  | zero => exact h i hi
  | succ n ih =>
    simp only [List.range'_succ, List.foldl_cons]
    have hkk : (BitVec.ofNat 6 k).toNat = k := by simp; omega
    refine ih (by omega) (by omega) (fun j hj => ?_) (by omega)
    unfold expandStep
    rw [getWord_setWord, getWord_setWord, expandedWord_congr (by omega) (by simpa only [hkk] using h)]
    split
    · rfl
    · refine h j ?_
      have : (BitVec.ofNat 6 k).toNat ≠ j.toNat := fun e => ‹¬_› (BitVec.eq_of_toNat_eq e)
      omega

/-- The loop over EXP runs the expansion. -/
theorem overT_expand {s : State} {n k : Nat} (hk : 16 ≤ k) (hn : k + n ≤ 64) (hn0 : 0 < n) :
    overT .expand execExp (List.range' k n) s =
      .next { s with w := (List.range' k n).foldl expandStep s.w, ph := .expand, t := BitVec.ofNat 6 (k + n - 1) } := by
  induction n generalizing k s with
  | zero => omega
  | succ n ih =>
    have hkk : (BitVec.ofNat 6 k).toNat = k := by simp; omega
    simp only [List.range'_succ, overT, List.foldl_cons]
    rw [execExp_next (by omega)]
    simp only [andThen_next]
    rcases Nat.eq_zero_or_pos n with rfl | hpos
    · rfl
    · rw [ih (by omega) (by omega) hpos, show k + 1 + n - 1 = k + (n + 1) - 1 by omega]
      rfl

/-- The loop over LDW, from a full buffer: the words from `k` on are the block's, the others stay. -/
theorem overT_load {s : State} {b : Block} (hb : s.buf.Holds b) {n k : Nat} (hn : k + n ≤ 16) (hn0 : 0 < n) :
    ∃ w, overT .loadw execLdw (List.range' k n) s =
        .next { s with w := w, ph := .loadw, t := BitVec.ofNat 6 (k + n - 1) } ∧
      ∀ i : BitVec 6, getWord w i =
        if k ≤ i.toNat ∧ i.toNat < k + n then getWord (loadedWords b) i else getWord s.w i := by
  induction n generalizing k s with
  | zero => omega
  | succ n ih =>
    have hkk : (BitVec.ofNat 6 k).toNat = k := by simp; omega
    simp only [List.range'_succ, overT]
    rw [execLdw_block (t := BitVec.ofNat 6 k) (s := s.engineAt .loadw (BitVec.ofNat 6 k)) (by omega) hb]
    simp only [andThen_next]
    have hone : ∀ i : BitVec 6, getWord (setWord s.w (BitVec.ofNat 6 k) (getWord (loadedWords b) (BitVec.ofNat 6 k))) i =
        if i.toNat = k then getWord (loadedWords b) i else getWord s.w i := by
      intro i
      rw [getWord_setWord]
      by_cases h : i.toNat = k
      · have e : BitVec.ofNat 6 k = i := BitVec.eq_of_toNat_eq (by omega)
        rw [if_pos e, if_pos h, e]
      · rw [if_neg (fun e => h (by rw [← e, hkk])), if_neg h]
    rcases Nat.eq_zero_or_pos n with rfl | hpos
    · refine ⟨_, rfl, fun i => (hone i).trans ?_⟩
      congr 1
      simp only [eq_iff_iff]; omega
    · obtain ⟨w, hw, hi⟩ := ih (s := (s.engineAt .loadw (BitVec.ofNat 6 k)).writeW (BitVec.ofNat 6 k)
        (getWord (loadedWords b) (BitVec.ofNat 6 k))) hb (k := k + 1) (by omega) hpos
      refine ⟨w, ?_, fun i => ?_⟩
      · rw [hw, show k + 1 + n - 1 = k + (n + 1) - 1 by omega]
        rfl
      · rw [hi i]
        simp only [State.writeW_w, State.engineAt_w]
        rw [hone]
        split_ifs <;> first | omega | rfl

/-- Both loops of BLK that build the schedule, from a full buffer: W is `Schedule(B)`, whatever it held. -/
theorem overT_schedule {s : State} {b : Block} (hb : s.buf.Holds b) (f : State → Result) :
    (andThen (overT .loadw execLdw (List.range' 0 16) s) fun s =>
      andThen (overT .expand execExp (List.range' 16 48) s) f) =
      f { s with w := schedule b, ph := .expand, t := 63#6 } := by
  obtain ⟨w, hw, hi⟩ := overT_load hb (k := 0) (n := 16) (by omega) (by omega)
  have hs : (List.range' 16 48).foldl expandStep w = schedule b := by
    rw [schedule_eq]
    apply words64_ext
    intro i
    refine expand_congr (by omega) (by omega) (fun j hj => ?_) i (by omega)
    rw [hi j, if_pos (by omega)]
  rw [hw, andThen_next, overT_expand (by omega) (by omega) (by omega), andThen_next, hs]

end Sys2Proof.Machine
end

