-- ==== Sys2Proof/Laws/Compression.lean ====
section
/-! SUPPORT. The loop of rounds, and BLK whole: what it computes from a full buffer, and all it can change. -/

namespace Sys2Proof.Machine

@[simp] theorem execLdv_next (s : State) : execLdv s = .next (s.setV s.h) := rfl
@[simp] theorem execRnd_next (t : BitVec 6) (s : State) :
    execRnd t s = .next (s.setV (round s.v (readK t) (s.readW t))) := rfl
@[simp] theorem execAddh_next (s : State) : execAddh s = .next (s.setH (addWords s.h s.v)) := rfl

theorem compressBlock_eq (h : Words8) (b : Block) : compressBlock h b = addWords h (rounds (schedule b) h) := by
  unfold compressBlock; with_reducible rfl

theorem rounds_eq (w : Words64) (v : Words8) : rounds w v = (List.range' 0 64).foldl (roundStep w) v := by
  unfold rounds; with_reducible rfl

/-- The loop over RND runs the rounds. -/
theorem overT_rounds {s : State} {n k : Nat} (hn0 : 0 < n) :
    overT .rounds execRnd (List.range' k n) s =
      .next { s with v := (List.range' k n).foldl (roundStep s.w) s.v, ph := .rounds, t := BitVec.ofNat 6 (k + n - 1) } := by
  induction n generalizing k s with
  | zero => omega
  | succ n ih =>
    simp only [List.range'_succ, overT, List.foldl_cons, execRnd_next, andThen_next]
    rcases Nat.eq_zero_or_pos n with rfl | hpos
    · rfl
    · rw [ih hpos, show k + 1 + n - 1 = k + (n + 1) - 1 by omega]
      rfl

/-- BLK from a full buffer (42_compression.md R163, R164): the schedule of the block, the rounds on it, the feed-forward into
H, one more block counted, the engine idle, and nothing else. -/
theorem blk_next {s : State} {b : Block} (hb : s.buf.Holds b) :
    blk s = .next { s with
      w := schedule b, v := rounds (schedule b) s.h, h := compressBlock s.h b, nblk := s.nblk + 1#64, ph := .fill, t := 0#6 } := by
  unfold blk
  rw [overT_schedule hb, execLdv_next, andThen_next, overT_rounds (by omega), andThen_next, execAddh_next, andThen_next,
    compressBlock_eq, rounds_eq]
  rfl

/-- All that a loop over T can change, when its operation changes the schedule and the working variables at most. -/
theorem overT_eq_next {p : BlockPhase} {op : BitVec 6 → State → Result}
    (hop : ∀ i s u, op i s = .next u → ∃ w v, u = { s with w := w, v := v }) {ts : List Nat} {s u : State}
    (h : overT p op ts s = .next u) : ∃ w v ph t, u = { s with w := w, v := v, ph := ph, t := t } := by
  induction ts generalizing s with
  | nil => cases h; exact ⟨_, _, _, _, rfl⟩
  | cons t ts ih =>
    obtain ⟨s', h1, h2⟩ := andThen_eq_next.1 h
    obtain ⟨w, v, rfl⟩ := hop _ _ _ h1
    obtain ⟨w', v', ph, t', rfl⟩ := ih h2
    exact ⟨_, _, _, _, rfl⟩

/-- All that BLK can change, from any state. -/
theorem blk_eq_next {s u : State} (h : blk s = .next u) :
    ∃ w v x, u = { s with w := w, v := v, h := x, nblk := s.nblk + 1#64, ph := .fill, t := 0#6 } := by
  unfold blk at h
  obtain ⟨s1, h1, h⟩ := andThen_eq_next.1 h
  obtain ⟨s2, h2, h⟩ := andThen_eq_next.1 h
  rw [execLdv_next, andThen_next] at h
  obtain ⟨s3, h3, h⟩ := andThen_eq_next.1 h
  rw [execAddh_next, andThen_next] at h
  obtain ⟨_, _, _, _, rfl⟩ := overT_eq_next (fun i s u hu => by
    obtain ⟨_, x, rfl⟩ := execLdw_eq_next hu; exact ⟨_, _, rfl⟩) h1
  obtain ⟨_, _, _, _, rfl⟩ := overT_eq_next (fun i s u hu => by
    obtain ⟨_, rfl⟩ := execExp_eq_next hu; exact ⟨_, _, rfl⟩) h2
  obtain ⟨_, _, _, _, rfl⟩ := overT_eq_next (fun i s u hu => by
    cases hu; exact ⟨_, _, rfl⟩) h3
  cases h
  exact ⟨_, _, _, rfl⟩

end Sys2Proof.Machine
end

