-- ==== Sys2Proof/Laws/Flags.lean ====
section
/-! SUPPORT. The phase check in each of its three cases (60_exceptions.md R199), and the codes of ST and CAUSE. -/

namespace Sys2Proof.Machine

theorem inPhase_fault {admits : Status → Bool} {s : State} {body : State → Result} (h : s.st = .fault) :
    inPhase admits s body = .next s := by
  simp [inPhase, h]

theorem inPhase_admitted {admits : Status → Bool} {s : State} {body : State → Result} (hf : s.st ≠ .fault)
    (h : admits s.st = true) : inPhase admits s body = body s := by
  simp [inPhase, hf, h]

theorem inPhase_refused {admits : Status → Bool} {s : State} {body : State → Result} (hf : s.st ≠ .fault)
    (h : admits s.st = false) : inPhase admits s body = .next (s.enterFault .badPhase) := by
  simp [inPhase, hf, h, raise]

theorem Status.code_injective : Function.Injective Status.code := by
  intro a b h
  cases a <;> cases b <;> first | rfl | simp [Status.code] at h

theorem Cause.code_injective : Function.Injective Cause.code := by
  intro a b h
  cases a <;> cases b <;> first | rfl | simp [Cause.code] at h

end Sys2Proof.Machine
end

