-- ==== Sys2Proof/Laws/Padder.lean ====
section
/-! SUPPORT. PUSH in its two cases, all it can change, and what it does to the padded stream (20_memory.md R52). -/

namespace Sys2Proof.Machine

/-- PUSH below offset 63 (40_padder.md R110). -/
theorem push_partial {x : Byte} {s : State} (h : s.off ≠ 63#6) :
    push x s = .next ((s.setBuf (s.buf.write s.off.toNat x)).setOff (s.off + 1#6)) := by
  simp [push, h]

/-- PUSH at offset 63, when the other 63 bytes are there: BLK runs on the block (R110). -/
theorem push_full {x : Byte} {s : State} {b : Block} (h : s.off = 63#6) (hb : (s.buf.write 63 x).Holds b) :
    push x s = .next { s with
      buf := s.buf.write 63 x, off := 0#6, w := schedule b, v := rounds (schedule b) s.h, h := compressBlock s.h b, nblk := s.nblk + 1#64, ph := .fill, t := 0#6 } := by
  have h63 : s.off.toNat = 63 := by rw [h]; rfl
  rw [push, memWrite_byte, h63]
  simp only [h, if_true]
  rw [blk_next (b := b) hb]
  rfl

/-- All that PUSH can change, from any state. -/
theorem push_eq_next {x : Byte} {s u : State} (h : push x s = .next u) :
    u.buf = s.buf.write s.off.toNat x ∧ u.off = s.off + 1#6 ∧ u.dlen = s.dlen ∧ u.cnt = s.cnt ∧ u.st = s.st ∧
      u.cause = s.cause ∧ u.pp = s.pp ∧ u.li = s.li ∧ u.cmd = s.cmd ∧ u.busy = s.busy ∧ u.host = s.host ∧
      (s.off ≠ 63#6 → u.h = s.h ∧ u.v = s.v ∧ u.w = s.w ∧ u.nblk = s.nblk ∧ u.ph = s.ph ∧ u.t = s.t) ∧
      (s.off = 63#6 → u.nblk = s.nblk + 1#64 ∧ u.ph = .fill ∧ u.t = 0#6) := by
  by_cases ho : s.off = 63#6
  · simp only [push, memWrite_byte, ho, if_true] at h
    obtain ⟨w, v, y, rfl⟩ := blk_eq_next h
    simp [ho]
  · rw [push_partial ho] at h
    cases h
    simp [ho]

/-- PUSH keeps the buffer canonical. -/
theorem push_wf {x : Byte} {s u : State} (hs : s.buf.wf = true) (h : push x s = .next u) : u.buf.wf = true := by
  rw [(push_eq_next h).1]
  exact Memory.wf_write x hs s.off.isLt

/-- What a PUSH leaves of the registers outside the stream. -/
structure State.PushFrame (s u : State) : Prop where
  dlen : u.dlen = s.dlen
  cnt : u.cnt = s.cnt
  st : u.st = s.st
  cause : u.cause = s.cause
  pp : u.pp = s.pp
  li : u.li = s.li
  cmd : u.cmd = s.cmd
  busy : u.busy = s.busy
  host : u.host = s.host
  buffer : s.buf.wf = true → u.buf.wf = true
  outside : ∀ a, 64 ≤ a → u.buf.read a = s.buf.read a
  engine : s.ph = .fill ∧ s.t = 0#6 → u.ph = .fill ∧ u.t = 0#6

theorem push_frame {x : Byte} {s u : State} (h : push x s = .next u) : s.PushFrame u := by
  obtain ⟨hb, -, a, b, c, d, e, f, g, i, j, k, l⟩ := push_eq_next h
  refine ⟨a, b, c, d, e, f, g, i, j, fun hs => push_wf hs h, fun a ha => ?_, fun hs => ?_⟩
  · rw [hb, Memory.read_write_other _ _ (by have := s.off.isLt; omega)]
  by_cases ho : s.off = 63#6
  · exact ⟨(l ho).2.1, (l ho).2.2⟩
  · obtain ⟨-, -, -, -, hp, ht⟩ := k ho
    exact ⟨hp.trans hs.1, ht.trans hs.2⟩

theorem State.PushFrame.trans {s u x : State} (h : s.PushFrame u) (h' : u.PushFrame x) : s.PushFrame x :=
  ⟨h'.dlen.trans h.dlen, h'.cnt.trans h.cnt, h'.st.trans h.st, h'.cause.trans h.cause, h'.pp.trans h.pp,
    h'.li.trans h.li, h'.cmd.trans h.cmd, h'.busy.trans h.busy, h'.host.trans h.host,
    fun hs => h'.buffer (h.buffer hs),
    fun a ha => (h'.outside a ha).trans (h.outside a ha), fun hs => h'.engine (h.engine hs)⟩

/-- A block is the 64 bytes at its index, wherever more bytes follow. -/
theorem blockAt_append {p q : List Byte} {i : Nat} (h : 64 * i + 64 ≤ p.length) : blockAt (p ++ q) i = blockAt p i := by
  unfold blockAt
  congr 1
  funext j
  have := j.isLt
  rw [List.getD_append _ _ _ _ (by omega)]

theorem compressBlocks_append {h0 : Words8} {p q : List Byte} {n : Nat} (h : 64 * n ≤ p.length) :
    compressBlocks h0 (p ++ q) n = compressBlocks h0 p n := by
  induction n with
  | zero => simp [compressBlocks]
  | succ n ih =>
    have ih := ih (by omega)
    unfold compressBlocks at *
    rw [List.range_succ, List.foldl_append, List.foldl_append, ih]
    simp only [List.foldl_cons, List.foldl_nil]
    rw [blockAt_append (by omega)]

theorem compressBlocks_succ (h0 : Words8) (p : List Byte) (n : Nat) :
    compressBlocks h0 p (n + 1) = compressBlock (compressBlocks h0 p n) (blockAt p n) := by
  simp [compressBlocks, List.range_succ]

/-- The empty stream stands wherever the offset is 0. -/
theorem streamed_nil {s : State} (h : s.off = 0#6) : s.Streamed s.h s.nblk [] :=
  ⟨by simp [h], by simp, by simp, rfl⟩

/-- What the buffer holds of the stream `p`: at each index the last byte pushed there. -/
def Memory.Held (m : Memory) (p : List Byte) : Prop :=
  ∀ j, j < 64 → j < p.length → m.read j = p[j + 64 * ((p.length - 1 - j) / 64)]?

theorem Memory.held_write {m : Memory} {p : List Byte} (h : m.Held p) (x : Byte) :
    (m.write (p.length % 64) x).Held (p ++ [x]) := by
  intro j hj hl
  simp only [List.length_append, List.length_cons, List.length_nil] at hl ⊢
  rw [Memory.read_write]
  split
  · subst j
    rw [show p.length % 64 + 64 * ((p.length + (0 + 1) - 1 - p.length % 64) / 64) = p.length by omega]
    simp
  · rw [h j hj (by omega), List.getElem?_append_left (by omega)]
    congr 1
    omega

/-- When the stream `p` ends at a block boundary, W and V are what compressing its last block leaves. -/
def State.Worked (s : State) (h0 : Words8) (p : List Byte) : Prop :=
  p.length % 64 = 0 →
    s.w = schedule (blockAt p (p.length / 64 - 1)) ∧
      s.v = rounds (schedule (blockAt p (p.length / 64 - 1))) (compressBlocks h0 p (p.length / 64 - 1))

theorem push_streamed_frame {x : Byte} {s : State} {h0 : Words8} {n0 : DWord} {p : List Byte}
    (hs : s.Streamed h0 n0 p) : ∃ u, push x s = .next u ∧ u.Streamed h0 n0 (p ++ [x]) ∧ s.PushFrame u ∧
      u.Worked h0 (p ++ [x]) := by
  have hlt : p.length % 64 < 64 := Nat.mod_lt _ (by omega)
  have hread : ∀ j, j ≤ p.length % 64 →
      (s.buf.write s.off.toNat x).read j = (p ++ [x])[64 * (p.length / 64) + j]? := by
    intro j hj
    rw [Memory.read_write, hs.off]
    split
    · subst j
      rw [show 64 * (p.length / 64) + p.length % 64 = p.length by omega]
      simp
    · rw [hs.tail j (by omega), List.getElem?_append_left (by omega)]
  by_cases ho : s.off = 63#6
  · have h63 : p.length % 64 = 63 := by rw [← hs.off, ho]; rfl
    have hb : (s.buf.write 63 x).Holds (blockAt (p ++ [x]) (p.length / 64)) := by
      intro j hj
      have := hread j (by omega)
      rw [hs.off, h63] at this
      rw [this, List.getElem?_eq_getElem (by simp; omega)]
      simp only [blockAt, Vector.getElem_ofFn]
      rw [List.getD_eq_getElem _ _ (by simp; omega)]
    have hu := push_full (x := x) ho hb
    refine ⟨_, hu, ⟨?_, ?_, ?_, ?_⟩, push_frame hu, fun _ => ?_⟩
    · simp; omega
    · intro j hj
      simp only [List.length_append, List.length_cons, List.length_nil] at hj
      omega
    · simp only [List.length_append, List.length_cons, List.length_nil, hs.nblk]
      rw [show (p.length + (0 + 1)) / 64 = p.length / 64 + 1 by omega, BitVec.add_assoc]
      congr 1
      simp [BitVec.ofNat_add]
    · simp only [List.length_append, List.length_cons, List.length_nil, hs.h]
      rw [show (p.length + (0 + 1)) / 64 = p.length / 64 + 1 by omega, compressBlocks_succ,
        compressBlocks_append (by omega)]
    · simp only [List.length_append, List.length_cons, List.length_nil, hs.h]
      rw [show (p.length + (0 + 1)) / 64 - 1 = p.length / 64 by omega, compressBlocks_append (by omega)]
      exact ⟨rfl, rfl⟩
  · have h63 : p.length % 64 ≠ 63 := by
      rw [← hs.off]; intro h; exact ho (BitVec.eq_of_toNat_eq h)
    have hu := push_partial (x := x) ho
    have hdiv : (p.length + (0 + 1)) / 64 = p.length / 64 := by omega
    have hmod : (p.length + (0 + 1)) % 64 = p.length % 64 + 1 := by omega
    refine ⟨_, hu, ⟨?_, ?_, ?_, ?_⟩, push_frame hu, fun h => ?_⟩
    · have := hs.off
      simp only [State.setOff_off, List.length_append, List.length_cons, List.length_nil, hmod]
      rw [BitVec.toNat_add, this]
      simp; omega
    · intro j hj
      simp only [List.length_append, List.length_cons, List.length_nil, hdiv, hmod] at hj ⊢
      exact hread j (by omega)
    · simpa only [State.setOff_nblk, State.setBuf_nblk, List.length_append, List.length_cons, List.length_nil, hdiv]
        using hs.nblk
    · simp only [State.setOff_h, State.setBuf_h, List.length_append, List.length_cons, List.length_nil, hdiv, hs.h]
      rw [compressBlocks_append (by omega)]
    · simp only [List.length_append, List.length_cons, List.length_nil] at h
      omega

/-- PUSH appends its byte to the padded stream (R52), and completes from every state of a stream. -/
theorem push_streamed {x : Byte} {s : State} {h0 : Words8} {n0 : DWord} {p : List Byte} (hs : s.Streamed h0 n0 p) :
    ∃ u, push x s = .next u ∧ u.Streamed h0 n0 (p ++ [x]) ∧ s.PushFrame u ∧
      (s.buf.Held p → u.buf.Held (p ++ [x])) ∧ u.Worked h0 (p ++ [x]) := by
  obtain ⟨u, hu, hus, huf, huw⟩ := push_streamed_frame (x := x) hs
  refine ⟨u, hu, hus, huf, fun hh => ?_, huw⟩
  rw [(push_eq_next hu).1, hs.off]
  exact Memory.held_write hh x

end Sys2Proof.Machine
end

