-- ==== Sys2Proof/Laws/Commands.lean ====
section
/-! SUPPORT. The loops of PADSEQ on the padded stream, PADSEQ whole, and the arithmetic of `Pad`. -/

namespace Sys2Proof.Machine

/-- The stream is a matter of OFF, B, NBLK and H alone. -/
theorem State.Streamed.congr {s u : State} {h0 : Words8} {n0 : DWord} {p : List Byte} (hs : s.Streamed h0 n0 p)
    (ho : u.off = s.off) (hb : u.buf = s.buf) (hn : u.nblk = s.nblk) (hh : u.h = s.h) : u.Streamed h0 n0 p :=
  ⟨by rw [ho]; exact hs.off, by rw [hb]; exact hs.tail, by rw [hn]; exact hs.nblk, by rw [hh]; exact hs.h⟩

theorem State.Streamed.padderAt {s : State} {h0 : Words8} {n0 : DWord} {p : List Byte} (hs : s.Streamed h0 n0 p)
    (pp : PadPhase) (li : BitVec 3) : (s.padderAt pp li).Streamed h0 n0 p :=
  hs.congr rfl rfl rfl rfl

theorem State.PushFrame.refl (s : State) : s.PushFrame s :=
  ⟨rfl, rfl, rfl, rfl, rfl, rfl, rfl, rfl, rfl, id, fun _ _ => rfl, id⟩

theorem State.PushFrame.padderAt {s u : State} (h : s.PushFrame u) (pp : PadPhase) (li : BitVec 3) :
    (s.padderAt pp li).PushFrame (u.padderAt pp li) :=
  ⟨h.dlen, h.cnt, h.st, h.cause, rfl, rfl, h.cmd, h.busy, h.host, h.buffer, h.outside, h.engine⟩

/-- The ZEROS loop pushes as many zeros as it takes to bring OFF to 56 (40_padder.md R108). -/
theorem zerosLoop_streamed {fuel k : Nat} {s : State} {h0 : Words8} {n0 : DWord} {p : List Byte}
    (hs : s.Streamed h0 n0 p) (hk : k ≤ fuel) (hend : (p.length + k) % 64 = 56)
    (hbefore : ∀ j < k, (p.length + j) % 64 ≠ 56) :
    ∃ u, zerosLoop fuel s = .next u ∧ u.Streamed h0 n0 (p ++ List.replicate k 0x00#8) ∧ s.PushFrame u ∧
      (s.buf.Held p → u.buf.Held (p ++ List.replicate k 0x00#8)) := by
  induction k generalizing fuel s p with
  | zero =>
    refine ⟨s, ?_, by simpa using hs, .refl s, fun h => by simpa using h⟩
    have ho : s.off = 56#6 := BitVec.eq_of_toNat_eq (by rw [hs.off]; simpa using hend)
    cases fuel <;> simp [zerosLoop, ho]
  | succ k ih =>
    obtain ⟨fuel, rfl⟩ : ∃ f, fuel = f + 1 := ⟨fuel - 1, by omega⟩
    have ho : s.off ≠ 56#6 := by
      intro h
      have := hs.off
      rw [h] at this
      exact hbefore 0 (by omega) (by simpa using this.symm)
    obtain ⟨u, hu, hus, huf, huh, -⟩ := push_streamed (x := 0x00#8) hs
    obtain ⟨x, hx, hxs, hxf, hxh⟩ := ih (fuel := fuel) hus (by omega) (by simp; omega)
      (fun j hj => by have := hbefore (j + 1) (by omega); simp; omega)
    refine ⟨x, ?_, ?_, huf.trans hxf, fun h => ?_⟩
    · rw [zerosLoop, if_neg ho, execPush00, hu, andThen_next, hx]
    · rw [List.replicate_succ]
      simpa using hxs
    · rw [List.replicate_succ]
      simpa using hxh (huh h)

/-- The loop over PUSHL pushes the length bytes from `LI` on (R108, R114). -/
theorem lengthLoop_streamed {n i : Nat} (hi : i + n = 8) {s : State} {h0 : Words8} {n0 : DWord} {p : List Byte}
    (hs : s.Streamed h0 n0 p) (hli : s.li = BitVec.ofNat 3 i) :
    ∃ u, lengthLoop n s = .next u ∧ u.Streamed h0 n0 (p ++ (List.range' i n).map (lengthByte s.dlen)) ∧
      (s.padderAt s.pp 0#3).PushFrame u ∧
      (s.buf.Held p → u.buf.Held (p ++ (List.range' i n).map (lengthByte s.dlen))) ∧
      (0 < n → u.Worked h0 (p ++ (List.range' i n).map (lengthByte s.dlen))) := by
  induction n generalizing i s p with
  | zero =>
    refine ⟨s, rfl, by simpa using hs, ⟨rfl, rfl, rfl, rfl, rfl, ?_, rfl, rfl, rfl, id, fun _ _ => rfl, id⟩,
      fun h => by simpa using h, fun h => absurd h (by omega)⟩
    obtain rfl : i = 8 := by omega
    rw [hli]; rfl
  | succ n ih =>
    obtain ⟨u, hu, hus, huf, huh, huw⟩ := push_streamed (x := lengthByte s.dlen s.li.toNat) hs
    obtain ⟨x, hx, hxs, hxf, hxh, hxw⟩ := ih (i := i + 1) (by omega) (s := u.padderAt u.pp (s.li + 1#3))
      (hus.padderAt _ _) (by rw [State.padderAt_li, hli, BitVec.ofNat_add])
    have hnat : s.li.toNat = i := by rw [hli]; simp; omega
    refine ⟨x, ?_, ?_, ?_, fun h => ?_, fun _ => ?_⟩
    · rw [lengthLoop, execPushl, hu, andThen_next, huf.li]
      exact hx
    · rw [hnat, State.padderAt_dlen, huf.dlen] at hxs
      simpa [List.range'_succ] using hxs
    · have h1 : (s.padderAt s.pp 0#3).PushFrame (u.padderAt s.pp 0#3) := huf.padderAt _ _
      refine h1.trans ?_
      rw [State.padderAt_pp, huf.pp] at hxf
      exact hxf
    · have := hxh (huh h)
      rw [hnat, State.padderAt_dlen, huf.dlen] at this
      simpa [List.range'_succ] using this
    · rw [hnat] at huw hxw
      rcases Nat.eq_zero_or_pos n with rfl | hpos
      · cases hx
        exact huw
      · have := hxw hpos
        rw [State.padderAt_dlen, huf.dlen] at this
        simpa [List.range'_succ] using this

/-- PADSEQ on a stream whose last block holds `r` bytes (R108, R109): marker, zeros to offset 56, the length field; then
DONE. -/
theorem padseq_streamed {s : State} {h0 : Words8} {n0 : DWord} {p : List Byte} (hs : s.Streamed h0 n0 p) :
    ∃ u, padseq s = .next u ∧
      u.Streamed h0 n0 (p ++ [0x80#8] ++ List.replicate ((119 - p.length % 64) % 64) 0x00#8 ++ be64bytes s.dlen) ∧
      ((s.padderAt .msg 0#3).finish).PushFrame u ∧
      (s.buf.Held p → u.buf.Held
        (p ++ [0x80#8] ++ List.replicate ((119 - p.length % 64) % 64) 0x00#8 ++ be64bytes s.dlen)) ∧
      u.Worked h0 (p ++ [0x80#8] ++ List.replicate ((119 - p.length % 64) % 64) 0x00#8 ++ be64bytes s.dlen) := by
  obtain ⟨s1, h1, hs1, hf1, hh1, -⟩ := push_streamed (x := 0x80#8) (hs.padderAt .mark s.li)
  obtain ⟨s2, h2, hs2, hf2, hh2⟩ := zerosLoop_streamed (fuel := 64) (k := (119 - p.length % 64) % 64)
    (hs1.padderAt .zeros s1.li) (by omega) (by simp; omega) (fun j hj => by simp; omega)
  obtain ⟨s3, h3, hs3, hf3, hh3, hw3⟩ := lengthLoop_streamed (i := 0) (n := 8) rfl (hs2.padderAt .length 0#3) rfl
  have hd : s2.dlen = s.dlen := by rw [hf2.dlen, State.padderAt_dlen, hf1.dlen, State.padderAt_dlen]
  have h8 : List.range' 0 8 = List.range 8 := by simp [List.range_eq_range']
  rw [State.padderAt_dlen, hd, h8] at hs3 hh3 hw3
  refine ⟨(s3.padderAt .msg s3.li).finish, ?_, hs3.congr rfl rfl rfl rfl, ?_, fun h => hh3 (hh2 (hh1 h)), hw3 (by omega)⟩
  · rw [padseq, execPush80, h1, andThen_next, h2, andThen_next, h3, andThen_next]
  · refine ⟨?_, ?_, rfl, ?_, rfl, ?_, ?_, ?_, ?_, ?_, ?_, ?_⟩
    · exact hf3.dlen.trans (hf2.dlen.trans hf1.dlen)
    · exact hf3.cnt.trans (hf2.cnt.trans hf1.cnt)
    · exact hf3.cause.trans (hf2.cause.trans hf1.cause)
    · exact hf3.li
    · exact hf3.cmd.trans (hf2.cmd.trans hf1.cmd)
    · exact hf3.busy.trans (hf2.busy.trans hf1.busy)
    · exact hf3.host.trans (hf2.host.trans hf1.host)
    · exact fun h => hf3.buffer (hf2.buffer (hf1.buffer h))
    · exact fun a ha => (hf3.outside a ha).trans ((hf2.outside a ha).trans (hf1.outside a ha))
    · exact fun h => hf3.engine (hf2.engine (hf1.engine h))

/-! ## The arithmetic of `Pad` -/

/-- Both forms of `paddedLen` are equal (R102). -/
theorem paddedLen_eq (n : Nat) : paddedLen n = 64 * ((n + 8) / 64 + 1) := by
  unfold paddedLen; omega

/-- The zeros of `Pad` are those PADSEQ pushes (R103, R109). -/
theorem zeroCount_eq (n : Nat) : zeroCount n = (119 - n % 64) % 64 := by
  unfold zeroCount; rw [paddedLen_eq]; omega

@[simp] theorem be64bytes_length (l : DWord) : (be64bytes l).length = 8 := rfl

/-- `Pad(m)` has `paddedLen` bytes (R100). -/
theorem padBytes_length (m : List Byte) : (padBytes m).length = paddedLen m.length := by
  simp only [padBytes, List.length_append, List.length_cons, List.length_nil, List.length_replicate, be64bytes_length,
    zeroCount]
  rw [paddedLen_eq]; omega

theorem pad_eq_some {m : List Byte} (h : m.length ≤ maxMessageBytes) : pad m = some (padBytes m) := if_pos h

/-- `Compress` on a whole number of blocks. -/
theorem compress_eq_some {h0 : Words8} {p : List Byte} (h : p.length % 64 = 0) :
    compress h0 p = some (compressBlocks h0 p (p.length / 64)) := if_pos h

/-- The final state of a message that has a `Pad`. -/
theorem finalState_eq {m : List Byte} (h : m.length ≤ maxMessageBytes) :
    finalState m = some (compressBlocks Config.initState (padBytes m) (paddedLen m.length / 64)) := by
  rw [finalState, pad_eq_some h, Option.bind_some, compress_eq_some (by rw [padBytes_length, paddedLen_eq]; omega),
    padBytes_length]

end Sys2Proof.Machine
end

