-- ==== Sys2Proof/Laws/Decode.lean ====
section
/-! SUPPORT. The fields of a word made of fields, and a word made of its own fields, for the three formats. -/

namespace Sys2Proof

/-- Bit `i` of a command word (30_encoding.md R70). -/
theorem getLsbD_commandWord (o : BitVec 8) (p : DWord) (i : Nat) :
    (commandWord o p).getLsbD i = if i < 64 then p.getLsbD i else o.getLsbD (i - 64) := BitVec.getLsbD_append

/-- Bit `i` of a USEQ9 code (R76). -/
theorem getLsbD_engineCode (p : BitVec 3) (t : BitVec 6) (i : Nat) :
    (engineCode p t).getLsbD i = if i < 6 then t.getLsbD i else p.getLsbD (i - 6) := BitVec.getLsbD_append

/-- Bit `i` of a payload made of its reserved bits and BYTE (R71). -/
theorem getLsbD_payload (r : BitVec 56) (b : Byte) (i : Nat) :
    (r ++ b : DWord).getLsbD i = if i < 8 then b.getLsbD i else r.getLsbD (i - 8) := BitVec.getLsbD_append

@[simp] theorem opcodeOf_commandWord (o : BitVec 8) (p : DWord) : opcodeOf (commandWord o p) = o := by
  apply BitVec.eq_of_getLsbD_eq
  intro i hi
  simp [opcodeOf, getLsbD_commandWord, hi]

@[simp] theorem payloadOf_commandWord (o : BitVec 8) (p : DWord) : payloadOf (commandWord o p) = p := by
  apply BitVec.eq_of_getLsbD_eq
  intro i hi
  simp [payloadOf, getLsbD_commandWord, hi]

@[simp] theorem reservedOf_commandWord (o : BitVec 8) (r : BitVec 56) (b : Byte) :
    reservedOf (commandWord o (r ++ b)) = r := by
  apply BitVec.eq_of_getLsbD_eq
  intro i hi
  have h : 8 + i < 64 := by omega
  have e : 8 + i - 8 = i := by omega
  rw [reservedOf, BitVec.getLsbD_extractLsb', getLsbD_commandWord, if_pos h, getLsbD_payload, e]
  simp [hi]

@[simp] theorem byteOf_commandWord (o : BitVec 8) (r : BitVec 56) (b : Byte) :
    byteOf (commandWord o (r ++ b)) = b := by
  apply BitVec.eq_of_getLsbD_eq
  intro i hi
  have h : 0 + i < 64 := by omega
  rw [byteOf, BitVec.getLsbD_extractLsb', getLsbD_commandWord, if_pos h, getLsbD_payload]
  simp [hi]

theorem commandWord_fields (w : BitVec 72) : commandWord (opcodeOf w) (payloadOf w) = w := by
  apply BitVec.eq_of_getLsbD_eq
  intro i hi
  simp only [opcodeOf, payloadOf, getLsbD_commandWord, BitVec.getLsbD_extractLsb']
  by_cases h : i < 64
  · simp [h]
  · have h' : i - 64 < 8 := by omega
    have e : 64 + (i - 64) = i := by omega
    simp [h, h', e]

theorem payload_fields (w : BitVec 72) : reservedOf w ++ byteOf w = payloadOf w := by
  apply BitVec.eq_of_getLsbD_eq
  intro i hi
  simp only [getLsbD_payload, reservedOf, byteOf, payloadOf, BitVec.getLsbD_extractLsb']
  by_cases h : i < 8
  · have : i < 64 := by omega
    simp [h, this]
  · have h' : i - 8 < 56 := by omega
    have h'' : i < 64 := by omega
    have e : 8 + (i - 8) = i := by omega
    simp [h, h', h'', e]

@[simp] theorem byteOf_dataWord (b : Byte) : byteOf (dataWord b) = b := byteOf_commandWord _ _ _

@[simp] theorem ppField_padderCode (p : BitVec 2) (l : BitVec 3) : ppField (padderCode p l) = p := by
  revert p l; decide

@[simp] theorem liField_padderCode (p : BitVec 2) (l : BitVec 3) : liField (padderCode p l) = l := by
  revert p l; decide

theorem padderCode_fields (c : BitVec 5) : padderCode (ppField c) (liField c) = c := by
  revert c; decide

@[simp] theorem phField_engineCode (p : BitVec 3) (t : BitVec 6) : phField (engineCode p t) = p := by
  apply BitVec.eq_of_getLsbD_eq
  intro i hi
  simp [phField, getLsbD_engineCode, hi]

@[simp] theorem tField_engineCode (p : BitVec 3) (t : BitVec 6) : tField (engineCode p t) = t := by
  apply BitVec.eq_of_getLsbD_eq
  intro i hi
  simp [tField, getLsbD_engineCode, hi]

theorem engineCode_fields (c : BitVec 9) : engineCode (phField c) (tField c) = c := by
  apply BitVec.eq_of_getLsbD_eq
  intro i hi
  simp only [phField, tField, getLsbD_engineCode, BitVec.getLsbD_extractLsb']
  by_cases h : i < 6
  · simp [h]
  · have h' : i - 6 < 3 := by omega
    have e : 6 + (i - 6) = i := by omega
    simp [h, h', e]

end Sys2Proof
end

