-- ==== Sys2Proof/Laws/PerInstr.lean ====
section
/-! SUPPORT. Per instruction: its encoded word agrees with its row of spec/opcode_table.json (width, match and mask). -/

namespace Sys2Proof.Laws.EncodeMatchesTable

/-- A 72-bit word has the fixed bits of a row: `w and mask = match` (30_encoding.md R73). -/
abbrev Fixed72 (c : Code) (mask pattern : BitVec 72) : Prop := ∃ w, c = .cmd w ∧ w &&& mask = pattern

/-- The same of a PSEQ5 code. -/
abbrev Fixed5 (c : Code) (mask pattern : BitVec 5) : Prop := ∃ w, c = .pseq w ∧ w &&& mask = pattern

/-- The same of a USEQ9 code. -/
abbrev Fixed9 (c : Code) (mask pattern : BitVec 9) : Prop := ∃ w, c = .useq w ∧ w &&& mask = pattern

/-- The word of a well-formed instruction has the format and the fixed bits of its row of the table. -/
def Statement (i : Instr) : Prop :=
  i.wellFormed = true →
  match i with
  | .start _ => Fixed72 (encode i) 0xFF0000000000000000 0x010000000000000000
  | .data _ => Fixed72 (encode i) 0xFFFFFFFFFFFFFFFF00 0x020000000000000000
  | .last => Fixed72 (encode i) 0xFFFFFFFFFFFFFFFFFF 0x030000000000000000
  | .pushm => Fixed5 (encode i) 0x1F 0x00
  | .push80 => Fixed5 (encode i) 0x1F 0x08
  | .push00 => Fixed5 (encode i) 0x1F 0x10
  | .pushl _ => Fixed5 (encode i) 0x18 0x18
  | .ldw _ => Fixed9 (encode i) 0x1F0 0x040
  | .exp _ => Fixed9 (encode i) 0x1C0 0x080
  | .ldv => Fixed9 (encode i) 0x1FF 0x0C0
  | .rnd _ => Fixed9 (encode i) 0x1C0 0x100
  | .addh => Fixed9 (encode i) 0x1FF 0x140

/-- Masking a command word masks its two fields. -/
theorem commandWord_and (o o' : BitVec 8) (p p' : DWord) :
    commandWord o p &&& commandWord o' p' = commandWord (o &&& o') (p &&& p') := BitVec.and_append

theorem start (len : DWord) : Statement (.start len) := fun _ => ⟨_, rfl, by
  rw [show (0xFF0000000000000000 : BitVec 72) = commandWord 0xFF#8 0#64 from rfl, startWord, commandWord_and,
    BitVec.and_zero]
  rfl⟩

theorem data (b : Byte) : Statement (.data b) := fun _ => ⟨_, rfl, by
  rw [show (0xFFFFFFFFFFFFFFFF00 : BitVec 72) = commandWord 0xFF#8 0xFFFFFFFFFFFFFF00#64 from rfl, dataWord,
    commandWord_and]
  have h : (0#56 ++ b : DWord) &&& 0xFFFFFFFFFFFFFF00#64 = 0#64 := by revert b; decide
  rw [h]
  rfl⟩

theorem last : Statement .last := fun _ => ⟨_, rfl, rfl⟩

theorem pushm : Statement .pushm := fun _ => ⟨_, rfl, rfl⟩

theorem push80 : Statement .push80 := fun _ => ⟨_, rfl, rfl⟩

theorem push00 : Statement .push00 := fun _ => ⟨_, rfl, rfl⟩

theorem pushl (li : BitVec 3) : Statement (.pushl li) := fun _ => ⟨_, rfl, by revert li; decide⟩

theorem ldw (t : BitVec 6) : Statement (.ldw t) := fun h => ⟨_, rfl, by revert t; decide⟩

theorem exp (t : BitVec 6) : Statement (.exp t) := fun _ => ⟨_, rfl, by revert t; decide⟩

theorem ldv : Statement .ldv := fun _ => ⟨_, rfl, rfl⟩

theorem rnd (t : BitVec 6) : Statement (.rnd t) := fun _ => ⟨_, rfl, by revert t; decide⟩

theorem addh : Statement .addh := fun _ => ⟨_, rfl, rfl⟩

end Sys2Proof.Laws.EncodeMatchesTable
end

