-- ==== Sys2Proof/Laws/Sequencer.lean ====
section
/-! SUPPORT. The advance of the sequencer, one lemma per phase and case (10_state.md R38; 40_padder.md R108;
42_compression.md R163), and the codes of PP and PH (R34, R36). -/

namespace Sys2Proof.Machine

@[simp] theorem PadPhase.ofCode_code (p : PadPhase) : PadPhase.ofCode p.code = p := by cases p <;> rfl
@[simp] theorem BlockPhase.ofCode_code (p : BlockPhase) : BlockPhase.ofCode p.code = p := by cases p <;> rfl

theorem PadPhase.code_ofCode (c : BitVec 2) : (PadPhase.ofCode c).code = c := by revert c; decide
theorem BlockPhase.code_ofCode (c : BitVec 3) : (BlockPhase.ofCode c).code = c := by revert c; decide

variable {s : State}

/-! ## The block engine -/

theorem advanceEngine_loadw_last (h : s.ph = .loadw) (ht : s.t = 15#6) : advanceEngine s = s.engineAt .expand 16#6 := by
  rw [advanceEngine, h]; exact if_pos ht

theorem advanceEngine_loadw_next (h : s.ph = .loadw) (ht : s.t ≠ 15#6) :
    advanceEngine s = s.engineAt .loadw (s.t + 1#6) := by
  rw [advanceEngine, h]; exact if_neg ht

theorem advanceEngine_expand_last (h : s.ph = .expand) (ht : s.t = 63#6) : advanceEngine s = s.engineAt .loadv 0#6 := by
  rw [advanceEngine, h]; exact if_pos ht

theorem advanceEngine_expand_next (h : s.ph = .expand) (ht : s.t ≠ 63#6) :
    advanceEngine s = s.engineAt .expand (s.t + 1#6) := by
  rw [advanceEngine, h]; exact if_neg ht

theorem advanceEngine_loadv (h : s.ph = .loadv) : advanceEngine s = s.engineAt .rounds 0#6 := by
  rw [advanceEngine, h]

theorem advanceEngine_rounds_last (h : s.ph = .rounds) (ht : s.t = 63#6) : advanceEngine s = s.engineAt .feed 0#6 := by
  rw [advanceEngine, h]; exact if_pos ht

theorem advanceEngine_rounds_next (h : s.ph = .rounds) (ht : s.t ≠ 63#6) :
    advanceEngine s = s.engineAt .rounds (s.t + 1#6) := by
  rw [advanceEngine, h]; exact if_neg ht

theorem advanceEngine_feed (h : s.ph = .feed) : advanceEngine s = s.countBlock.engineAt .fill 0#6 := by
  rw [advanceEngine, h]

/-! ## The padder -/

theorem advancePadder_msg (h : s.pp = .msg) : advancePadder s = s.countByte.setBusy false := by
  rw [advancePadder, h]

theorem advancePadder_mark (h : s.pp = .mark) : advancePadder s = enterZeros s := by
  rw [advancePadder, h]

theorem advancePadder_zeros (h : s.pp = .zeros) : advancePadder s = enterZeros s := by
  rw [advancePadder, h]

theorem advancePadder_length_last (h : s.pp = .length) (hl : s.li = 7#3) :
    advancePadder s = (s.padderAt .msg 0#3).finish := by
  rw [advancePadder, h]; exact if_pos hl

theorem advancePadder_length_next (h : s.pp = .length) (hl : s.li ≠ 7#3) :
    advancePadder s = s.padderAt .length (s.li + 1#3) := by
  rw [advancePadder, h]; exact if_neg hl

theorem enterZeros_last (h : s.off = 56#6) : enterZeros s = s.padderAt .length 0#3 := if_pos h

theorem enterZeros_next (h : s.off ≠ 56#6) : enterZeros s = s.padderAt .zeros 0#3 := if_neg h

end Sys2Proof.Machine
end

