-- ==== Sys2Proof/Laws/Step.lean ====
section
/-! SUPPORT. What is due in each situation, and the step in each. -/

namespace Sys2Proof.Machine

/-- At a command boundary the host's next event is due. -/
theorem due_boundary {s : State} (h : s.AtBoundary) :
    due s = (match s.host with
      | [] => .idle
      | .rst :: rest => .reset rest
      | .command w :: rest => .command w rest) := by
  obtain ⟨⟨h1, h2, h3, -⟩, h5⟩ := h
  simp only [due, State.padderActive, h1, h2, h3, h5]
  rfl

theorem step_boundary_command {s : State} (h : s.AtBoundary) {w : BitVec 72} {rest : List HostEvent}
    (hh : s.host = .command w :: rest) : step s = stepCommand w rest s := by
  rw [step, due_boundary h, hh]

theorem step_boundary_rst {s : State} (h : s.AtBoundary) {rest : List HostEvent} (hh : s.host = .rst :: rest) :
    step s = .next (s.rst rest) := by
  rw [step, due_boundary h, hh]

/-- With the block engine at a phase, its micro-operation is due. -/
theorem due_engine {s : State} (h : s.ph ≠ .fill) : due s = .micro (.useq s.engineWord) := if_pos h

/-- With the engine idle and the padder active, the padder's micro-operation is due. -/
theorem due_padder {s : State} (h : s.ph = .fill) (ha : s.padderActive = true) :
    due s = .micro (.pseq s.padderWord) := by
  rw [due, if_neg (by simp [h]), if_pos ha]

/-- A step of the block engine whose micro-operation ends in a next state. -/
theorem step_engine {s u : State} {i : Instr} (h : s.ph ≠ .fill) (hd : decode (.useq s.engineWord) = .ok i)
    (hu : exec i s = .next u) : step s = .next (advanceEngine u) := by
  simp [step, due_engine h, stepMicro, hd, hu, advance]

/-- A step of the padder whose micro-operation ends in a next state. -/
theorem step_padder {s u : State} {i : Instr} (h : s.ph = .fill) (ha : s.padderActive = true)
    (hd : decode (.pseq s.padderWord) = .ok i) (hu : exec i s = .next u) : step s = .next (advancePadder u) := by
  simp [step, due_padder h ha, stepMicro, hd, hu, advance]

/-- All that a step can be: nothing, a reset, a command word taken whole, or a micro-operation and its advance. -/
theorem step_eq_next {s t : State} (h : step s = .next t) :
    t = s ∨ (∃ rest, s.host = .rst :: rest ∧ t = s.rst rest) ∨
      (∃ w rest i, s.host = .command w :: rest ∧ decode (.cmd w) = .ok i ∧ exec i (s.accept w rest) = .next t) ∨
      (∃ w rest, s.host = .command w :: rest ∧ illegalCommand (s.accept w rest) = .next t) ∨
      (∃ i u, s.ph ≠ .fill ∧ decode (.useq s.engineWord) = .ok i ∧ exec i s = .next u ∧ t = advanceEngine u) ∨
      (∃ i u, s.ph = .fill ∧ s.padderActive = true ∧ decode (.pseq s.padderWord) = .ok i ∧ exec i s = .next u ∧
        t = advancePadder u) := by
  by_cases hp : s.ph = .fill
  · by_cases ha : s.padderActive = true
    · simp only [step, due_padder hp ha, stepMicro] at h
      cases hd : decode (.pseq s.padderWord) with
      | error e => simp [hd] at h
      | ok i =>
        simp only [hd] at h
        obtain ⟨u, hu, he⟩ := andThen_eq_next.1 h
        cases he
        exact .inr (.inr (.inr (.inr (.inr ⟨i, u, hp, ha, rfl, hu, rfl⟩))))
    · have hd : due s = (match s.host with
          | [] => .idle
          | .rst :: rest => .reset rest
          | .command w :: rest => .command w rest) :=
        (if_neg (by simp [hp])).trans (if_neg ha)
      rw [step, hd] at h
      cases hh : s.host with
      | nil => simp only [hh] at h; cases h; exact .inl rfl
      | cons e rest =>
        cases e with
        | rst => simp only [hh] at h; cases h; exact .inr (.inl ⟨rest, rfl, rfl⟩)
        | command w =>
          simp only [hh, stepCommand] at h
          cases hc : decode (.cmd w) with
          | error e => simp only [hc] at h; exact .inr (.inr (.inr (.inl ⟨w, rest, rfl, h⟩)))
          | ok i => simp only [hc] at h; exact .inr (.inr (.inl ⟨w, rest, i, rfl, hc, h⟩))
  · simp only [step, due_engine hp, stepMicro] at h
    cases hd : decode (.useq s.engineWord) with
    | error e => simp [hd] at h
    | ok i =>
      simp only [hd] at h
      obtain ⟨u, hu, he⟩ := andThen_eq_next.1 h
      cases he
      exact .inr (.inr (.inr (.inr (.inl ⟨i, u, hp, rfl, hu, rfl⟩))))

/-! ## Runs -/

@[simp] theorem run_zero (s : State) : run 0 s = .next s := rfl

theorem run_succ (n : Nat) (s : State) : run (n + 1) s = andThen (step s) (run n) := by
  have h : run (n + 1) s = _ := Host.Core.run.eq_2 core s n
  rw [h, show core.step s = step s from rfl]
  cases step s <;> rfl

theorem run_add (m n : Nat) (s : State) : run (m + n) s = andThen (run m s) (run n) := by
  induction m generalizing s with
  | zero => rw [Nat.zero_add, run_zero, andThen_next]
  | succ m ih =>
    rw [Nat.succ_add, run_succ, run_succ, andThen_assoc]
    cases step s <;> simp [ih]

end Sys2Proof.Machine
end

