-- ==== Sys2Proof/Tests/Slice0.lean ====
section
/-! SUPPORT. Tests: expected values from 95_test_vectors.md, 96_test_traces.md and the tables of 30_encoding.md, and one
witness per statement that has hypotheses. -/

namespace Sys2Proof.Tests

open Sys2Proof.Machine

/-! ## Helpers -/

/-- The outcome is a next state with property `p`. -/
def nextIs (r : Result) (p : State → Bool) : Bool :=
  match r with
  | .next s => p s
  | .fault _ => false
  | .refused _ => false

/-- A message of at most 63 bytes, all of it accepted, its length declared. -/
def absorbing (m : List Byte) : State :=
  { State.reset with
    st := .absorb, h := IV, dlen := BitVec.ofNat 64 (8 * m.length), cnt := BitVec.ofNat 64 m.length
    off := BitVec.ofNat 6 m.length, buf := Memory.writeMany [] 0 m }

/-- A buffer of 64 written bytes, all zero. -/
def fullBuffer : Memory := (List.range 64).map fun i => (i, 0x00#8)

/-- The block the full buffer holds. -/
def zeroBlock : Block := Vector.replicate 64 0x00#8

/-- Reset, in another status. -/
def inStatus (st : Status) : State := { State.reset with st := st }

/-- The same with the host about to present `w`. -/
def given (w : BitVec 72) (s : State) : State := { s with host := [.command w] }

/-- The block engine at a phase and index, W holding the words of `"abc"` (96_test_traces.md section 2). -/
def engine (p : BlockPhase) (t : BitVec 6) : State := { State.reset with ph := p, t := t, w := setWord (setWord State.reset.w 0#6 0x61626380) 15#6 0x00000018 }

/-! ## WellFormed: each check refuses an ill-formed term -/

theorem test_wellFormed_ldw : (Instr.ldw 15#6).wellFormed = true ∧ (Instr.ldw 16#6).wellFormed = false := by decide

theorem test_wellFormed_exp : (Instr.exp 16#6).wellFormed = true ∧ (Instr.exp 15#6).wellFormed = false := by decide

/-! ## Decode: words written out (95_test_vectors.md section 6; 30_encoding.md R73, R77, R79) -/

theorem test_decode_start : decodeTableWord 72 0x01ffffffffffffffff = some (.start 0xffffffffffffffff#64) := by decide

theorem test_decode_data : decodeTableWord 72 0x020000000000000061 = some (.data 0x61#8) := by decide

theorem test_decode_last : decodeTableWord 72 0x030000000000000000 = some .last := by decide

theorem test_decode_illegal :
    [0x000000000000000000, 0x040000000000000000, 0xff0000000000000061, 0x020000000000000100, 0x028000000000000061,
      0x030000000000000001, 0x038000000000000000, 0xffffffffffffffffff].map (decodeTableWord 72) =
    List.replicate 8 none := by decide

theorem test_decode_pseq5 :
    [0b00000, 0b01000, 0b10000, 0b11000, 0b11111, 0b00001, 0b01100, 0b10111].map (decodeTableWord 8) =
    [some .pushm, some .push80, some .push00, some (.pushl 0#3), some (.pushl 7#3), none, none, none] := by decide

theorem test_decode_useq9 :
    [0b001000000, 0b001001111, 0b010010000, 0b010111111, 0b011000000, 0b100000000, 0b100111111, 0b101000000].map
      (decodeTableWord 16) =
    [some (.ldw 0#6), some (.ldw 15#6), some (.exp 16#6), some (.exp 63#6), some .ldv, some (.rnd 0#6),
      some (.rnd 63#6), some .addh] := by decide

theorem test_decode_useq9_none :
    [0b000000000, 0b001010000, 0b010001111, 0b011000001, 0b101100000, 0b110000000, 0b111111111].map
      (decodeTableWord 16) = List.replicate 7 none := by decide

/-! ## The functions (96_test_traces.md section 4.1) -/

theorem test_sigmas :
    [ssig0 0x12345678, ssig1 0x12345678, bsig0 0x12345678, bsig1 0x12345678] =
      [0xe7fce6ee, 0xa1f78649, 0x66146474, 0x3561abda] ∧
    [ssig0 0xdeadbeef, ssig1 0xdeadbeef, bsig0 0xdeadbeef, bsig1 0xdeadbeef] =
      [0xabd31b0b, 0x689dbfec, 0xb62e25ac, 0x345e14a3] := by decide

theorem test_ch_maj :
    ch 0x510e527f 0x9b05688c 0x1f83d9ab = 0x1f85c98c ∧ maj 0x510e527f 0x9b05688c 0x1f83d9ab = 0x1b0758af ∧
    ch 0xffffffff 0x12345678 0x9abcdef0 = 0x12345678 ∧ maj 0xffffffff 0x12345678 0x9abcdef0 = 0x9abcdef8 := by decide

/-- 96_test_traces.md section 4.1, byte order. -/
theorem test_byte_order :
    be32 0x61 0x62 0x63 0x80 = 0x61626380 ∧ be64bytes 24#64 = [0, 0, 0, 0, 0, 0, 0, 0x18] ∧
    be64bytes (0 - 8) = [0xff, 0xff, 0xff, 0xff, 0xff, 0xff, 0xff, 0xf8] ∧
    be32bytes 0xba7816bf = [0xba, 0x78, 0x16, 0xbf] := by decide

/-- 40_padder.md R100 on 0, 55 and 56 bytes (95_test_vectors.md section 3). -/
theorem test_pad_lengths :
    [0, 55, 56, 64, 119, 120].map paddedLen = [64, 64, 128, 128, 128, 192] := by decide

/-! ## START, DATA, LAST -/

/-- Vector F4, with R105's registers. -/
theorem test_start : nextIs (step (given 0x010000000000000018 State.reset)) (fun s =>
    s.st = .absorb ∧ s.dlen = 24#64 ∧ s.h = #v[0x6a09e667, 0xbb67ae85, 0x3c6ef372, 0xa54ff53a, 0x510e527f, 0x9b05688c, 0x1f83d9ab, 0x5be0cd19]) = true := by
  decide

/-- Vector F5: no restart inside a message. -/
theorem test_start_inside_message : nextIs (step (given 0x010000000000000000 { State.reset with st := .absorb, dlen := 24#64 })) (fun s =>
    s.st = .fault ∧ s.cause = .badPhase ∧ s.dlen = 24#64) = true := by decide

/-- 96_test_traces.md section 4.4: the second byte of `"abc"`. -/
theorem test_data : nextIs (step (given 0x020000000000000062 (absorbing [0x61]))) (fun s =>
    s.cnt = 2#64 ∧ s.off = 2#6 ∧ s.buf = [(0, 0x61), (1, 0x62)] ∧ s.st = .absorb) = true := by decide

/-- Vector F24: the longest message takes no further byte. -/
theorem test_data_overflow :
    nextIs (step (given 0x020000000000000061 { State.reset with st := .absorb, cnt := 0x1fffffffffffffff#64, off := 63#6 })) (fun s =>
      s.st = .fault ∧ s.cause = .lenOverflow ∧ s.off = 63#6 ∧ s.buf = []) = true := by decide

/-- The digest of `"abc"` (95_test_vectors.md P2), through schedule, 64 rounds and feed-forward. -/
theorem test_last : nextIs (step (given 0x030000000000000000 (absorbing [0x61, 0x62, 0x63]))) (fun s =>
    s.st = .done ∧ s.nblk = 1#64 ∧ s.off = 0#6 ∧
    s.portDigest = some 0xba7816bf8f01cfea414140de5dae2223b00361a396177a9cb410ff61f20015ad#256) = true := by
  decide +kernel

/-- Vector F7: too few bytes. -/
theorem test_last_mismatch : nextIs (step (given 0x030000000000000000 { absorbing [0x61] with dlen := 24#64 })) (fun s =>
    s.st = .fault ∧ s.cause = .lenMismatch ∧ s.buf = [(0, 0x61)]) = true := by decide

/-- Vectors F15, F23: BAD_COMMAND outranks the phase; in FAULT an illegal word is ignored. -/
theorem test_illegal :
    nextIs (step (given 0x050000000000000000 (absorbing [0x61]))) (fun s => s.st = .fault ∧ s.cause = .badCommand) = true ∧
    nextIs (step (given 0x000000000000000000 { State.reset with st := .fault, cause := .lenMismatch })) (fun s =>
      s.cause = .lenMismatch) = true := by decide

/-- The codes of 10_state.md R29 and R30 on the ports. -/
theorem test_ports :
    [Status.idle, .absorb, .done, .fault].map (fun x => (inStatus x).portSt) = [0#2, 1#2, 2#2, 3#2] ∧
    [Cause.none, .lenMismatch, .lenOverflow, .badCommand, .badPhase].map (fun x => { State.reset with cause := x }.portCause) =
      [0#3, 1#3, 2#3, 3#3, 4#3] := by decide

/-! ## The padder's micro-operations -/

/-- R111, R110: the byte of the DATA word goes to `B[OFF]`. -/
theorem test_pushm : nextIs (exec .pushm { absorbing [0x61] with cmd := dataWord 0x62 }) (fun s =>
    s.buf = [(0, 0x61), (1, 0x62)] ∧ s.off = 2#6 ∧ s.cnt = 1#64) = true := by decide

/-- 96_test_traces.md section 4.4: the marker of `"abc"` at offset 3. -/
theorem test_push80 : nextIs (exec .push80 (absorbing [0x61, 0x62, 0x63])) (fun s =>
    s.buf = [(0, 0x61), (1, 0x62), (2, 0x63), (3, 0x80)] ∧ s.off = 4#6) = true := by decide

/-- R113. -/
theorem test_push00 : nextIs (exec .push00 (absorbing [0x61])) (fun s =>
    s.buf = [(0, 0x61), (1, 0x00)] ∧ s.off = 2#6) = true := by decide

/-- R114: of `0x1c0` the byte at 6 is `01`, the byte at 7 is `c0` (95_test_vectors.md P3). -/
theorem test_pushl :
    nextIs (exec (.pushl 6#3) { absorbing [] with dlen := 448#64 }) (fun s => s.buf = [(0, 0x01)]) = true ∧
    nextIs (exec (.pushl 7#3) { absorbing [] with dlen := 448#64 }) (fun s => s.buf = [(0, 0xc0)]) = true := by decide

/-! ## The block engine's micro-operations (96_test_traces.md section 2) -/

/-- `W[0]` of `"abc"`. -/
theorem test_ldw : nextIs (exec (.ldw 0#6) { State.reset with buf := Memory.writeMany [] 0 [0x61, 0x62, 0x63, 0x80] })
    (fun s => getWord s.w 0#6 = 0x61626380) = true := by decide

/-- `W[17]` of `"abc"`, from `W[15]`. -/
theorem test_exp : nextIs (exec (.exp 17#6) (engine .expand 17#6)) (fun s => getWord s.w 17#6 = 0x000f0000) = true := by
  decide

/-- LDV with `H = IV`. -/
theorem test_ldv : nextIs (exec .ldv (absorbing [])) (fun s => s.v = IV) = true := by decide

/-- Round 0 of `"abc"`. -/
theorem test_rnd : nextIs (exec (.rnd 0#6) { engine .rounds 0#6 with v := IV }) (fun s =>
    s.v = #v[0x5d6aebcd, 0x6a09e667, 0xbb67ae85, 0x3c6ef372, 0xfa2a4622, 0x510e527f, 0x9b05688c, 0x1f83d9ab]) = true := by
  decide

/-- Round 63 of `"abc"`: the last constant. -/
theorem test_rnd_last : nextIs (exec (.rnd 63#6) { State.reset with w := setWord State.reset.w 63#6 0x12b1edeb, v := #v[0xd39a2165, 0x04d24d6c, 0xb85e2ce9, 0xb6ae8fff, 0xfb121210, 0x948d25b6, 0x961f4894, 0xb21bad3d] })
    (fun s => s.v = #v[0x506e3058, 0xd39a2165, 0x04d24d6c, 0xb85e2ce9, 0x5ef50f24, 0xfb121210, 0x948d25b6, 0x961f4894]) = true := by
  decide

/-- ADDH of `"abc"`. -/
theorem test_addh : nextIs (exec .addh { absorbing [] with v := #v[0x506e3058, 0xd39a2165, 0x04d24d6c, 0xb85e2ce9, 0x5ef50f24, 0xfb121210, 0x948d25b6, 0x961f4894] })
    (fun s => s.h = #v[0xba7816bf, 0x8f01cfea, 0x414140de, 0x5dae2223, 0xb00361a3, 0x96177a9c, 0xb410ff61, 0xf20015ad]) = true := by
  decide

/-- One step of each sequencer: the micro-operation and its advance (10_state.md R38). -/
theorem test_step_micro :
    nextIs (step (engine .rounds 63#6)) (fun s => s.ph = .feed ∧ s.t = 0#6) = true ∧
    nextIs (step (engine .feed 0#6)) (fun s => s.ph = .fill ∧ s.nblk = 1#64) = true ∧
    nextIs (step { absorbing [0x61] with pp := .mark }) (fun s => s.pp = .zeros ∧ s.off = 2#6) = true ∧
    nextIs (step { absorbing [] with pp := .length, li := 7#3 }) (fun s => s.pp = .msg ∧ s.st = .done) = true := by decide

/-! ## A word placed for the next step -/

theorem test_withFetchWord :
    nextIs (step (State.reset.withFetchWord 72 0x010000000000000018)) (fun s => s.dlen = 24#64) = true ∧
    nextIs (step (State.reset.withFetchWord 8 0b00000)) (fun s => s.buf = [(0, 0x00)] ∧ s.cnt = 1#64) = true ∧
    nextIs (step (State.reset.withFetchWord 8 0b01000)) (fun s => s.buf = [(0, 0x80)]) = true ∧
    nextIs (step (State.reset.withFetchWord 16 0b100000101)) (fun s => s.ph = .rounds ∧ s.t = 6#6) = true := by decide

/-! ## Witnesses: states and operands that meet the hypotheses of the statements, each clause -/

/-- The full buffer holds the zero block. -/
theorem fullBuffer_holds : fullBuffer.Holds zeroBlock := by unfold Memory.Holds; decide

/-- In ABSORB with offset 63 and 64 bytes written. -/
def atBlockEnd : State := { State.reset with st := .absorb, cnt := 0x1ffffffffffffffe#64, off := 63#6, buf := fullBuffer }

/-- In ABSORB after `r` zero bytes, the declared length right. -/
def zeros (r : Nat) : State :=
  { State.reset with
    st := .absorb, h := IV, dlen := BitVec.ofNat 64 (8 * r), cnt := BitVec.ofNat 64 r, off := BitVec.ofNat 6 r
    buf := (List.range r).map fun i => (i, 0x00#8) }

theorem witness_DecodeOfEncodeIsTheInstruction :
    (Instr.ldw 15#6).wellFormed = true ∧ (Instr.exp 63#6).wellFormed = true ∧ (Instr.start 0#64).wellFormed = true := by
  decide

theorem witness_DecodedWordIsTheEncoding :
    decode (.cmd 0x020000000000000061) = .ok (.data 0x61#8) ∧ decode (.pseq 0b11111) = .ok (.pushl 7#3) ∧
    decode (.useq 0b010010000) = .ok (.exp 16#6) := by refine ⟨?_, ?_, ?_⟩ <;> rfl

theorem witness_CommandWordsDecodeByOpcode :
    (0x01ffffffffffffffff : BitVec 72).extractLsb' 64 8 = 0x01#8 ∧
    (0x0200000000000000ff : BitVec 72).extractLsb' 64 8 = 0x02#8 ∧ (0x0200000000000000ff : BitVec 72).extractLsb' 8 56 = 0#56 ∧
    (0x030000000000000000 : BitVec 72).extractLsb' 64 8 = 0x03#8 ∧ (0x030000000000000000 : BitVec 72).extractLsb' 0 64 = 0#64 ∧
    decode (.cmd 0x020000000000000100) = .error .dataReservedBits := by refine ⟨?_, ?_, ?_, ?_, ?_, ?_⟩ <;> rfl

theorem witness_StepRunsTheDecodedCommand :
    (given 0x010000000000000018 State.reset).AtBoundary ∧
    (given 0x010000000000000018 State.reset).host = .command 0x010000000000000018 :: [] ∧
    decode (.cmd 0x010000000000000018) = .ok (.start 24#64) := ⟨by decide, rfl, rfl⟩

theorem witness_StepRunsTheSelectedMicroOperation_engine :
    (∃ s : State, s.ph ≠ .fill ∧ decode (.useq (engineCode s.ph.code s.t)) = .ok .ldv ∧ ∃ u, exec .ldv s = .next u) ∧
    (∃ s : State, s.ph ≠ .fill ∧ decode (.useq (engineCode s.ph.code s.t)) = .ok (.ldw 15#6) ∧
      ∃ e, exec (.ldw 15#6) s = .fault e) :=
  ⟨⟨engine .loadv 0#6, by decide, rfl, _, rfl⟩, ⟨engine .loadw 15#6, by decide, rfl, _, rfl⟩⟩

theorem witness_StepRunsTheSelectedMicroOperation_padder :
    (∃ s : State, s.ph = .fill ∧ s.busy = true ∧ decode (.pseq (padderCode s.pp.code s.li)) = .ok .pushm ∧
      ∃ u, exec .pushm s = .next u) ∧
    (∃ s : State, s.ph = .fill ∧ s.pp ≠ .msg ∧ decode (.pseq (padderCode s.pp.code s.li)) = .ok (.pushl 7#3) ∧
      ∃ e, exec (.pushl 7#3) s = .fault e) :=
  ⟨⟨{ State.reset with busy := true }, rfl, rfl, rfl, _, rfl⟩,
    ⟨{ State.reset with pp := .length, li := 7#3, off := 63#6 }, rfl, by decide, rfl, _, rfl⟩⟩

theorem witness_IllegalWordRaisesBadCommand :
    (given 0x040000000000000000 State.reset).AtBoundary ∧ State.reset.st ≠ .fault ∧
    IllegalWord 0x040000000000000000 ∧ IllegalWord 0x000000000000000000 ∧ IllegalWord 0xff0000000000000000 ∧
    IllegalWord 0x020000000000000100 ∧ IllegalWord 0x038000000000000000 ∧
    (given 0x040000000000000000 (inStatus .fault)).AtBoundary ∧ (inStatus .fault).st = .fault := by
  decide

theorem witness_NeverProducedCodesAreRefused :
    (engine .code6 0#6).ph = .code6 ∧ (engine .code7 0#6).ph = .code7 ∧ 16 ≤ (engine .loadw 16#6).t.toNat ∧
    (engine .expand 15#6).t.toNat < 16 ∧ (engine .loadv 1#6).t ≠ 0#6 ∧ (engine .feed 63#6).t ≠ 0#6 ∧
    ({ State.reset with pp := .zeros, li := 1#3 }.ph = .fill ∧ { State.reset with pp := .zeros, li := 1#3 }.pp ≠ .length ∧
      { State.reset with pp := .zeros, li := 1#3 }.li ≠ 0#3) := by decide

theorem witness_ResetSetsControlRegisters :
    { inStatus .fault with host := [.rst] }.AtBoundary ∧
    ∃ t, step { inStatus .fault with host := [.rst] } = .next t ∧ t.st ≠ .fault := ⟨by decide, _, rfl, by decide⟩

theorem witness_NothingHappensWithoutTheHost : State.reset.AtBoundary ∧ State.reset.host = [] := by decide

theorem witness_StartOpensAMessage :
    ∀ st, (inStatus st).st = st := fun _ => rfl

theorem witness_DataBelowTheBlockEndStoresItsByte :
    (zeros 62).st = .absorb ∧ (zeros 62).cnt.toNat ≠ 2 ^ 61 - 1 ∧ (zeros 62).off ≠ 63#6 := by decide

theorem witness_DataAtTheBlockEndCompresses :
    atBlockEnd.st = .absorb ∧ atBlockEnd.cnt.toNat ≠ 2 ^ 61 - 1 ∧ atBlockEnd.off = 63#6 ∧
    ∀ j (hj : j < 63), atBlockEnd.buf.read j = some zeroBlock[j] := by decide

/-- A command at a boundary, outside FAULT with no cause recorded, that ends in a next state, for every status. -/
theorem witness_EachCommandRecordsItsCause :
    ∀ st, st ≠ .fault → ∃ t, (given 0x010000000000000000 (inStatus st)).AtBoundary ∧
      (given 0x010000000000000000 (inStatus st)).cause = .none ∧ step (given 0x010000000000000000 (inStatus st)) = .next t := by
  intro st h
  cases st
  · exact ⟨_, by decide, rfl, rfl⟩
  · exact ⟨_, by decide, rfl, rfl⟩
  · exact ⟨_, by decide, rfl, rfl⟩
  · exact absurd rfl h

/-- The same, each cause recorded. -/
theorem witness_EachCommandRecordsItsCause_causes :
    nextIs (step (given 0x000000000000000000 State.reset)) (fun t => t.cause = .badCommand) = true ∧
    nextIs (step (given 0x030000000000000000 State.reset)) (fun t => t.cause = .badPhase) = true ∧
    nextIs (step (given 0x020000000000000000 { atBlockEnd with cnt := 0x1fffffffffffffff#64 })) (fun t => t.cause = .lenOverflow) = true ∧
    nextIs (step (given 0x030000000000000000 { zeros 1 with dlen := 9#64 })) (fun t => t.cause = .lenMismatch) = true ∧
    nextIs (step (given 0x020000000000000000 (zeros 1))) (fun t => t.cause = .none) = true := by decide

theorem witness_FaultingCommandChangesOnlyStatus :
    ∃ t, (State.reset).st ≠ .fault ∧ exec (.data 0x61#8) State.reset = .next t ∧ t.st = .fault :=
  ⟨_, by decide, rfl, rfl⟩

theorem witness_FaultIsTerminalUntilReset :
    (given 0x000000000000000000 (inStatus .fault)).AtBoundary ∧ (given 0x000000000000000000 (inStatus .fault)).st = .fault ∧
    (given 0x000000000000000000 (inStatus .fault)).host = [.command 0x000000000000000000] ∧
    ∃ t, step (given 0x000000000000000000 (inStatus .fault)) = .next t := ⟨by decide, rfl, rfl, _, rfl⟩

theorem witness_LastChecksPhaseAndLength :
    (inStatus .fault).st = .fault ∧ (inStatus .done).st = .done ∧
    { zeros 1 with dlen := 9#64 }.st = .absorb ∧ 8 * { zeros 1 with dlen := 9#64 }.cnt.toNat ≠ { zeros 1 with dlen := 9#64 }.dlen.toNat := by
  decide

theorem witness_DataChecksPhaseAndOverflow :
    { atBlockEnd with cnt := 0x1fffffffffffffff#64 }.st = .absorb ∧
    { atBlockEnd with cnt := 0x1fffffffffffffff#64 }.cnt.toNat = 2 ^ 61 - 1 := by decide

/-- The shortest and the longest tail that fit one block, and those that need two. -/
theorem witness_LastPadsAndFinishes : ∀ r ∈ [0, 55, 56, 63],
    (zeros r).st = .absorb ∧ (zeros r).quiescent ∧ 8 * (zeros r).cnt.toNat = (zeros r).dlen.toNat ∧
    (List.replicate r 0x00#8).length < 64 ∧ (zeros r).off.toNat = (List.replicate r 0x00#8).length ∧
    ∀ j (hj : j < (List.replicate r 0x00#8).length), (zeros r).buf.read j = some (List.replicate r 0x00#8)[j] := by
  decide

theorem witness_LastAgreesWithItsPushes : ∀ r ∈ [0, 55, 56, 63],
    (zeros r).st = .absorb ∧ (zeros r).quiescent ∧ 8 * (zeros r).cnt.toNat = (zeros r).dlen.toNat ∧
    (List.replicate r 0x00#8).length < 64 ∧ (zeros r).off.toNat = (List.replicate r 0x00#8).length ∧
    ∀ j (hj : j < (List.replicate r 0x00#8).length), (zeros r).buf.read j = some (List.replicate r 0x00#8)[j] :=
  witness_LastPadsAndFinishes

theorem witness_StatusMovesOnlyAsDescribed :
    (given 0x010000000000000018 State.reset).AtBoundary ∧
    (given 0x010000000000000018 State.reset).host = [.command 0x010000000000000018] ∧
    ∃ t, step (given 0x010000000000000018 State.reset) = .next t := ⟨by decide, rfl, _, rfl⟩

theorem witness_DigestStateHasNoOtherWriter :
    ∃ t, exec (.start 0#64) State.reset = .next t ∧ t.h ≠ State.reset.h := ⟨_, rfl, by decide⟩

theorem witness_ControlRegistersHaveNoOtherWriter :
    (∃ t, exec (.start 8#64) (inStatus .done) = .next t ∧ t.dlen ≠ 0#64 ∧ t.st ≠ .done) ∧
    (∃ t, exec (.data 0x61#8) (zeros 1) = .next t ∧ t.cnt ≠ (zeros 1).cnt ∧ t.buf ≠ (zeros 1).buf ∧ t.off ≠ (zeros 1).off) ∧
    (∃ t, exec (.start 8#64) { inStatus .done with nblk := 1#64 } = .next t ∧ t.nblk ≠ 1#64) :=
  ⟨⟨_, rfl, by decide, by decide⟩, ⟨_, rfl, by decide, by decide, by decide⟩, ⟨_, rfl, by decide⟩⟩

theorem witness_PushStoresAndAtTheBlockEndCompresses :
    (zeros 62).off ≠ 63#6 ∧ atBlockEnd.off = 63#6 ∧ (∀ j (hj : j < 63), atBlockEnd.buf.read j = some zeroBlock[j]) ∧
    zeroBlock[63] = 0x00#8 ∧ atBlockEnd.dlen.extractLsb' (56 - 8 * (7#3).toNat) 8 = zeroBlock[63] ∧
    (∀ j (hj : j < 63), atBlockEnd.buf.read j = some (zeroBlock.set 63 0x80#8)[j]) := by decide

theorem witness_DataIsPushmThenCount :
    { zeros 62 with cmd := dataWord 0x00#8 }.cmd = dataWord 0x00#8 ∧ { zeros 62 with cmd := dataWord 0x00#8 }.off ≠ 63#6 ∧
    { zeros 62 with cmd := dataWord 0x00#8 }.st = .absorb ∧ { zeros 62 with cmd := dataWord 0x00#8 }.cnt.toNat ≠ 2 ^ 61 - 1 ∧
    (∃ u, exec .pushm { zeros 62 with cmd := dataWord 0x00#8 } = .next u) ∧
    { atBlockEnd with cmd := dataWord 0x00#8 }.off = 63#6 ∧
    (∀ j (hj : j < 63), { atBlockEnd with cmd := dataWord 0x00#8 }.buf.read j = some zeroBlock[j]) ∧ zeroBlock[63] = 0x00#8 ∧
    (∃ e, exec .pushm { inStatus .absorb with cmd := dataWord 0x00#8, off := 63#6 } = .fault e) :=
  ⟨rfl, by decide, rfl, by decide, ⟨_, rfl⟩, rfl, by decide, rfl, ⟨_, rfl⟩⟩

theorem witness_UnwrittenBufferByteFaults :
    State.reset.buf.read (4 * (15#6).toNat + 3) = none ∧ { inStatus .absorb with off := 63#6 }.st = .absorb ∧
    { inStatus .absorb with off := 63#6 }.cnt.toNat ≠ 2 ^ 61 - 1 ∧
    { inStatus .absorb with off := 63#6 }.off = 63#6 ∧ { inStatus .absorb with off := 63#6 }.buf.read 62 = none ∧
    8 * { inStatus .absorb with off := 63#6 }.cnt.toNat = { inStatus .absorb with off := 63#6 }.dlen.toNat ∧
    62 < { inStatus .absorb with off := 63#6 }.off.toNat := by decide

theorem witness_LdwLoadsABigEndianWord : ∀ t ∈ [0#6, 15#6], t.toNat < 16 ∧
    atBlockEnd.buf.read (4 * t.toNat) = some 0x00#8 ∧ atBlockEnd.buf.read (4 * t.toNat + 1) = some 0x00#8 ∧
    atBlockEnd.buf.read (4 * t.toNat + 2) = some 0x00#8 ∧ atBlockEnd.buf.read (4 * t.toNat + 3) = some 0x00#8 := by decide

theorem witness_ExpExpandsOneWord : 16 ≤ (16#6).toNat ∧ 16 ≤ (63#6).toNat := by decide

theorem witness_IndexOutOfRangeIsRefused : 16 ≤ (16#6).toNat ∧ (15#6).toNat < 16 := by decide

theorem witness_SigmaFunctionsBitByBit : (0 < 1 ∧ 1 < 32) ∧ (0 < 31 ∧ 31 < 32) := by decide

theorem witness_BlockSequenceTakes130Steps : atBlockEnd.buf.Holds zeroBlock := fullBuffer_holds

theorem witness_PadIsTheMessageMarkerZerosAndLength :
    (List.replicate 56 0x61#8).length ≤ 2 ^ 61 - 1 ∧ 2 ^ 61 - 1 < (List.replicate (2 ^ 61) 0x61#8).length := by
  rw [List.length_replicate, List.length_replicate]; omega

theorem witness_CompressFoldsWholeBlocks :
    (List.replicate 63 0x61#8).length % 64 ≠ 0 ∧ compress IV [] = some IV := ⟨by decide, rfl⟩

theorem witness_DigestPortShowsTheDigestBytes : (inStatus .done).st = .done := rfl

/-- At a boundary in ABSORB, one byte accepted and the next one coming, the invariant holds and the step goes on. -/
theorem witness_StepKeepsTheBoundaryInvariant :
    ∃ t, (given 0x020000000000000062 (absorbing [0x61])).Boundary ∧
      step (given 0x020000000000000062 (absorbing [0x61])) = .next t :=
  ⟨_, {
    quiescent := by decide
    settled := rfl
    cause := by decide
    buffer := rfl
    bound := by decide
    absorb := fun _ => ⟨[0x61], rfl, rfl, by decide, by decide, fun j hj => by
      obtain rfl : j = 0 := by simp at hj; omega
      rfl, rfl, rfl⟩
    done := fun h => by cases h
    idle := fun h => by cases h }, rfl⟩

theorem witness_BoundaryStepNeverStops : (given 0x020000000000000062 (absorbing [0x61])).Boundary :=
  witness_StepKeepsTheBoundaryInvariant.elim fun _ h => h.1

theorem witness_StepKeepsTheBufferCanonical :
    ∃ t, (given 0x020000000000000062 (absorbing [0x61])).buf.wf = true ∧
      step (given 0x020000000000000062 (absorbing [0x61])) = .next t := ⟨_, rfl, rfl⟩

theorem witness_StepKeepsTheSequencerLegal :
    ∃ t, (engine .expand 63#6).SequencerLegal ∧ step (engine .expand 63#6) = .next t :=
  ⟨_, ⟨by decide, by decide, by decide, by decide, by decide, by decide, by decide⟩, rfl⟩

theorem witness_DataExtendsTheMessage : (absorbing [0x61]).Absorbing [0x61] ∧ [0x61#8].length < 2 ^ 61 - 1 :=
  ⟨⟨rfl, rfl, by decide, by decide, fun j hj => by
    obtain rfl : j = 0 := by simp at hj; omega
    rfl, rfl, rfl⟩, by decide⟩

theorem witness_LastFinishesTheMessage :
    (absorbing [0x61]).Absorbing [0x61] ∧ (absorbing [0x61]).dlen.toNat = 8 * [0x61#8].length :=
  ⟨witness_DataExtendsTheMessage.1, rfl⟩

/-- The host about to send `"abc"`, after `s`. -/
def aboutToSend (s : State) : State := { s with host := messageEvents [0x61, 0x62, 0x63] }

theorem witness_MessageCommandsGiveTheDigest : ∀ st ∈ [Status.idle, Status.done],
    (aboutToSend (inStatus st)).AtBoundary ∧ ((aboutToSend (inStatus st)).st = .idle ∨ (aboutToSend (inStatus st)).st = .done) ∧
    (aboutToSend (inStatus st)).cause = .none ∧ [0x61#8, 0x62#8, 0x63#8].length ≤ 2 ^ 61 - 1 ∧
    (aboutToSend (inStatus st)).host = messageEvents [0x61, 0x62, 0x63] ++ [] := by decide

theorem witness_NoLeakageBetweenMessages :
    (aboutToSend State.reset).AtBoundary ∧ (aboutToSend { inStatus .done with v := IV, h := IV, buf := fullBuffer }).AtBoundary ∧
    (aboutToSend State.reset).st = .idle ∧ (aboutToSend { inStatus .done with v := IV, h := IV, buf := fullBuffer }).st = .done ∧
    (aboutToSend State.reset).cause = .none ∧ (aboutToSend { inStatus .done with v := IV, h := IV, buf := fullBuffer }).cause = .none ∧
    [0x61#8, 0x62#8, 0x63#8].length ≤ 2 ^ 61 - 1 ∧
    (aboutToSend State.reset).host = messageEvents [0x61, 0x62, 0x63] ++ [] ∧
    (aboutToSend { inStatus .done with v := IV, h := IV, buf := fullBuffer }).host = messageEvents [0x61, 0x62, 0x63] ++ [] := by
  decide

theorem witness_StaleWorkingRegistersReachNothing :
    ∃ t, (given 0x020000000000000062 (absorbing [0x61])).AtBoundary ∧
      step (given 0x020000000000000062 (absorbing [0x61])) = .next t := ⟨_, by decide, rfl⟩

end Sys2Proof.Tests
end

/-! The decoder on command words (30_encoding.md R74, R75), and the step at a command boundary on an illegal one. -/

namespace Sys2Proof

/-! ## The words that decode -/

theorem decode_cmd_start {w : BitVec 72} (h : opcodeOf w = 0x01#8) : decode (.cmd w) = .ok (.start (payloadOf w)) := by
  simp [decode, decodeCommand, h]

theorem decode_cmd_data {w : BitVec 72} (h : opcodeOf w = 0x02#8) (hr : reservedOf w = 0#56) :
    decode (.cmd w) = .ok (.data (byteOf w)) := by
  simp [decode, decodeCommand, h, hr]

theorem decode_cmd_last {w : BitVec 72} (h : opcodeOf w = 0x03#8) (hp : payloadOf w = 0#64) :
    decode (.cmd w) = .ok .last := by
  simp [decode, decodeCommand, h, hp]

/-! ## The words that do not -/

theorem decode_cmd_dataReservedBits {w : BitVec 72} (h : opcodeOf w = 0x02#8) (hr : reservedOf w ≠ 0#56) :
    decode (.cmd w) = .error .dataReservedBits := by
  simp [decode, decodeCommand, h, hr]

theorem decode_cmd_lastReservedBits {w : BitVec 72} (h : opcodeOf w = 0x03#8) (hp : payloadOf w ≠ 0#64) :
    decode (.cmd w) = .error .lastReservedBits := by
  simp [decode, decodeCommand, h, hp]

theorem decode_cmd_undefinedOpcode {w : BitVec 72} (h1 : opcodeOf w ≠ 0x01#8) (h2 : opcodeOf w ≠ 0x02#8)
    (h3 : opcodeOf w ≠ 0x03#8) : decode (.cmd w) = .error .undefinedOpcode := by
  simp [decode, decodeCommand, h1, h2, h3]

/-- The words to which R74 gives an instruction. -/
def LegalWord (w : BitVec 72) : Prop :=
  opcodeOf w = 0x01#8 ∨ (opcodeOf w = 0x02#8 ∧ reservedOf w = 0#56) ∨ (opcodeOf w = 0x03#8 ∧ payloadOf w = 0#64)

theorem LegalWord.decode_cmd_ok {w : BitVec 72} (h : LegalWord w) : ∃ i, decode (.cmd w) = .ok i := by
  obtain h | ⟨h, hr⟩ | ⟨h, hp⟩ := h
  · exact ⟨_, decode_cmd_start h⟩
  · exact ⟨_, decode_cmd_data h hr⟩
  · exact ⟨_, decode_cmd_last h hp⟩

theorem decode_cmd_error_of_not_legalWord {w : BitVec 72} (h : ¬ LegalWord w) : ∃ e, decode (.cmd w) = .error e := by
  obtain ⟨h1, h2, h3⟩ : opcodeOf w ≠ 0x01#8 ∧ (opcodeOf w = 0x02#8 → reservedOf w ≠ 0#56) ∧
      (opcodeOf w = 0x03#8 → payloadOf w ≠ 0#64) := by simpa [LegalWord] using h
  by_cases hd : opcodeOf w = 0x02#8
  · exact ⟨_, decode_cmd_dataReservedBits hd (h2 hd)⟩
  · by_cases hl : opcodeOf w = 0x03#8
    · exact ⟨_, decode_cmd_lastReservedBits hl (h3 hl)⟩
    · exact ⟨_, decode_cmd_undefinedOpcode h1 hd hl⟩

theorem decode_cmd_error_iff {w : BitVec 72} : (∃ e, decode (.cmd w) = .error e) ↔ ¬ LegalWord w := by
  constructor
  · rintro ⟨e, he⟩ hw
    obtain ⟨i, hi⟩ := hw.decode_cmd_ok
    cases he.symm.trans hi
  · exact decode_cmd_error_of_not_legalWord

namespace Machine

/-- The list of R75 is the complement of the cases of R74. -/
theorem illegalWord_iff {w : BitVec 72} : IllegalWord w ↔ ¬ LegalWord w := by
  change ((opcodeOf w).toNat = 0x00 ∨ (0x04 ≤ (opcodeOf w).toNat ∧ (opcodeOf w).toNat ≤ 0xFF) ∨
    ((opcodeOf w).toNat = 0x02 ∧ reservedOf w ≠ 0#56) ∨ ((opcodeOf w).toNat = 0x03 ∧ payloadOf w ≠ 0#64)) ↔ _
  unfold LegalWord
  bv_omega

/-! ## The step on an illegal word -/

theorem step_boundary_illegal {s : State} {w : BitVec 72} {rest : List HostEvent} (hb : s.AtBoundary)
    (hh : s.host = .command w :: rest) (hw : IllegalWord w) : step s = illegalCommand (s.accept w rest) := by
  obtain ⟨e, he⟩ := decode_cmd_error_iff.2 (illegalWord_iff.1 hw)
  rw [step_boundary_command hb hh, stepCommand, he]

theorem illegalCommand_fault {s : State} (h : s.st = .fault) : illegalCommand s = .next s := if_pos h

theorem illegalCommand_raises {s : State} (h : s.st ≠ .fault) :
    illegalCommand s = .next (s.enterFault .badCommand) := if_neg h

end Machine

/-! ## The obligations -/

open Machine

/-- Settles O4: each clause is the decoder's equation for that opcode. -/
theorem commandWordsDecodeByOpcode : Obligations.CommandWordsDecodeByOpcode := fun _ =>
  ⟨decode_cmd_start, decode_cmd_data, decode_cmd_last, decode_cmd_error_iff⟩

/-- Settles O8: an illegal word does not decode, so the step is `illegalCommand` on the accepted word. -/
theorem illegalWordRaisesBadCommand : Obligations.IllegalWordRaisesBadCommand := fun _ _ _ hb hh hw =>
  ⟨fun hf => (step_boundary_illegal hb hh hw).trans (illegalCommand_raises hf),
    fun hf => (step_boundary_illegal hb hh hw).trans (illegalCommand_fault hf)⟩

end Sys2Proof

/-! The bytes of `Pad` by position (40_padder.md R100), and START by status (R105). -/

namespace Sys2Proof.Machine

/-! ## The big-endian value of the length field -/

/-- The number that `bytes` write in base 256, most significant byte first (00_scope.md R15). -/
def bigEndian (bytes : List Byte) : Nat := bytes.foldl (fun n b => 256 * n + b.toNat) 0

theorem bigEndian_append_singleton (bytes : List Byte) (b : Byte) :
    bigEndian (bytes ++ [b]) = 256 * bigEndian bytes + b.toNat := by
  simp [bigEndian]

theorem lengthByte_toNat (l : DWord) (j : Nat) : (lengthByte l j).toNat = l.toNat / 2 ^ (56 - 8 * j) % 256 := by
  rw [lengthByte, BitVec.extractLsb'_toNat, Nat.shiftRight_eq_div_pow]

/-- The first `n` bytes of the length field hold its top `8n` bits. -/
theorem bigEndian_lengthBytes (l : DWord) {n : Nat} (hn : n ≤ 8) :
    bigEndian ((List.range n).map (lengthByte l)) = l.toNat / 2 ^ (64 - 8 * n) := by
  induction n with
  | zero => exact (Nat.div_eq_of_lt l.isLt).symm
  | succ n ih =>
    have hpow : 2 ^ (64 - 8 * n) = 2 ^ (56 - 8 * n) * 256 := by
      rw [show 64 - 8 * n = 56 - 8 * n + 8 by omega, Nat.pow_add]
    have hexp : 64 - 8 * (n + 1) = 56 - 8 * n := by omega
    rw [List.range_succ, List.map_append, List.map_singleton, bigEndian_append_singleton, ih (by omega), lengthByte_toNat,
      hexp, hpow, ← Nat.div_div_eq_div_mul, Nat.div_add_mod]

@[simp] theorem bigEndian_be64bytes (l : DWord) : bigEndian (be64bytes l) = l.toNat := by
  rw [be64bytes, bigEndian_lengthBytes l (Nat.le_refl 8), Nat.pow_zero, Nat.div_one]

/-! ## `Pad` by position -/

theorem padBytes_getElem?_message {m : List Byte} {j : Nat} (h : j < m.length) : (padBytes m)[j]? = m[j]? := by
  simp only [padBytes, List.append_assoc, List.getElem?_append_left h]

theorem padBytes_getElem?_marker (m : List Byte) : (padBytes m)[m.length]? = some 0x80#8 := by
  simp [padBytes]

/-- The lengths of the four parts of R100. -/
theorem padBytes_length_parts (m : List Byte) : (padBytes m).length = m.length + 1 + zeroCount m.length + 8 := by
  simp only [padBytes, List.length_append, List.length_singleton, List.length_replicate, be64bytes_length]

theorem padBytes_getElem?_zeros {m : List Byte} {j : Nat} (hm : m.length < j) (hj : j < (padBytes m).length - 8) :
    (padBytes m)[j]? = some 0x00#8 := by
  have hz : j - (m.length + 1) < zeroCount m.length := by rw [padBytes_length_parts] at hj; omega
  have hj' : j < (m ++ [0x80#8] ++ List.replicate (zeroCount m.length) 0x00#8).length := by simp; omega
  have hm' : (m ++ [0x80#8]).length ≤ j := by simp; omega
  rw [padBytes, List.getElem?_append_left hj', List.getElem?_append_right hm', List.length_append, List.length_singleton,
    List.getElem?_replicate_of_lt hz]

/-- The final 8 bytes are the length field. -/
theorem padBytes_drop_to_lengthField (m : List Byte) :
    (padBytes m).drop ((padBytes m).length - 8) = be64bytes (BitVec.ofNat 64 (8 * m.length)) := by
  have hk : (padBytes m).length - 8 = (m ++ [0x80#8] ++ List.replicate (zeroCount m.length) 0x00#8).length := by
    rw [padBytes, List.length_append, be64bytes_length, Nat.add_sub_cancel]
  exact List.drop_left' hk.symm

theorem pad_eq_none {m : List Byte} (h : maxMessageBytes < m.length) : pad m = none := if_neg (Nat.not_le.2 h)

/-! ## START: its word, and its effect by status -/

theorem decode_startWord (len : DWord) : decode (.cmd (startWord len)) = .ok (.start len) := by
  rw [startWord, decode_cmd_start (opcodeOf_commandWord _ _), payloadOf_commandWord]

theorem execStart_opens {s : State} (len : DWord) (h : s.st = .idle ∨ s.st = .done) :
    execStart len s = .next (s.openMessage IV len) := by
  obtain h | h := h <;> exact inPhase_admitted (by simp [h]) (by rw [h]; rfl)

theorem execStart_absorb {s : State} (len : DWord) (h : s.st = .absorb) :
    execStart len s = .next (s.enterFault .badPhase) := inPhase_refused (by simp [h]) (by rw [h]; rfl)

theorem execStart_fault {s : State} (len : DWord) (h : s.st = .fault) : execStart len s = .next s := inPhase_fault h

end Sys2Proof.Machine

namespace Sys2Proof

/-! ## The obligations -/

open Machine

/-- Settles O38: each clause reads one of the four parts that `padBytes` joins; 8n fits the length field because n is at most
2^61 - 1. -/
theorem padIsTheMessageMarkerZerosAndLength : Obligations.PadIsTheMessageMarkerZerosAndLength := by
  refine fun m => ⟨fun h => ⟨padBytes m, pad_eq_some h, ?_, fun _ => padBytes_getElem?_message, padBytes_getElem?_marker m,
    fun _ => padBytes_getElem?_zeros, ?_⟩, pad_eq_none⟩
  · rw [padBytes_length, paddedLen_eq]
  · have hfits : 8 * m.length < 2 ^ 64 := by omega
    change bigEndian _ = _
    rw [padBytes_drop_to_lengthField, bigEndian_be64bytes, BitVec.toNat_ofNat, Nat.mod_eq_of_lt hfits]

/-- Settles O12: START executes in the statuses `admitsStart` admits, and the phase check answers in the two others. -/
theorem startOpensAMessage : Obligations.StartOpensAMessage := fun _ len =>
  ⟨decode_startWord len, execStart_opens len, execStart_absorb len, execStart_fault len⟩

end Sys2Proof

/-! The schedule (41_schedule.md R135 to R137): the recurrence that `Schedule` satisfies, LDW and EXP with their codes, and
the bits of the rotation and of the four sigma functions (R130 to R133; 42_compression.md R150, R151). -/

namespace Sys2Proof.Machine

/-! ## The bits of the rotation and of the sigma functions -/

theorem getLsbD_rotr (x : Word) {n i : Nat} (hn : 0 < n ∧ n < 32) (hi : i < 32) :
    (rotr x n hn).getLsbD i = x.getLsbD ((i + n) % 32) := by
  rw [rotr_eq_rotateRight, BitVec.getLsbD_rotateRight, Nat.mod_eq_of_lt hn.2]
  by_cases h : i < 32 - n
  · have e : (i + n) % 32 = n + i := by omega
    rw [decide_eq_true h, cond_true, e]
  · have e : (i + n) % 32 = i - (32 - n) := by omega
    rw [decide_eq_false h, cond_false, e, decide_eq_true hi, Bool.true_and]

/-- A shift right brings in zeros (R131). -/
theorem getLsbD_shiftRight (x : Word) (n i : Nat) : (x >>> n).getLsbD i = (decide (i + n < 32) && x.getLsbD (i + n)) := by
  rw [BitVec.getLsbD_ushiftRight, Nat.add_comm n i]
  by_cases h : i + n < 32
  · rw [decide_eq_true h, Bool.true_and]
  · rw [decide_eq_false h, Bool.false_and, BitVec.getLsbD_of_ge _ _ (Nat.not_lt.1 h)]

theorem getLsbD_ssig0 (x : Word) {i : Nat} (hi : i < 32) : (ssig0 x).getLsbD i =
    ((x.getLsbD ((i + 7) % 32) ^^ x.getLsbD ((i + 18) % 32)) ^^ (decide (i + 3 < 32) && x.getLsbD (i + 3))) := by
  rw [ssig0, BitVec.getLsbD_xor, BitVec.getLsbD_xor, getLsbD_rotr x _ hi, getLsbD_rotr x _ hi, getLsbD_shiftRight]

theorem getLsbD_ssig1 (x : Word) {i : Nat} (hi : i < 32) : (ssig1 x).getLsbD i =
    ((x.getLsbD ((i + 17) % 32) ^^ x.getLsbD ((i + 19) % 32)) ^^ (decide (i + 10 < 32) && x.getLsbD (i + 10))) := by
  rw [ssig1, BitVec.getLsbD_xor, BitVec.getLsbD_xor, getLsbD_rotr x _ hi, getLsbD_rotr x _ hi, getLsbD_shiftRight]

theorem getLsbD_bsig0 (x : Word) {i : Nat} (hi : i < 32) : (bsig0 x).getLsbD i =
    ((x.getLsbD ((i + 2) % 32) ^^ x.getLsbD ((i + 13) % 32)) ^^ x.getLsbD ((i + 22) % 32)) := by
  rw [bsig0, BitVec.getLsbD_xor, BitVec.getLsbD_xor, getLsbD_rotr x _ hi, getLsbD_rotr x _ hi, getLsbD_rotr x _ hi]

theorem getLsbD_bsig1 (x : Word) {i : Nat} (hi : i < 32) : (bsig1 x).getLsbD i =
    ((x.getLsbD ((i + 6) % 32) ^^ x.getLsbD ((i + 11) % 32)) ^^ x.getLsbD ((i + 25) % 32)) := by
  rw [bsig1, BitVec.getLsbD_xor, BitVec.getLsbD_xor, getLsbD_rotr x _ hi, getLsbD_rotr x _ hi, getLsbD_rotr x _ hi]

/-! ## Words and indexes -/

theorem toNat_ofNat_lt {t : Nat} (ht : t < 64) : (BitVec.ofNat 6 t).toNat = t := by
  rw [BitVec.toNat_ofNat, Nat.mod_eq_of_lt ht]

theorem getWord_ofNat (w : Words64) {t : Nat} (ht : t < 64) : getWord w (BitVec.ofNat 6 t) = w[t] := by
  simp only [getWord, toNat_ofNat_lt ht]

theorem ofNat_toNat_sub {t : BitVec 6} {k : Nat} (hk : k ≤ t.toNat) :
    BitVec.ofNat 6 (t.toNat - k) = t - BitVec.ofNat 6 k := by
  rw [← BitVec.ofNat_sub_ofNat_of_le _ _ (Nat.lt_of_le_of_lt hk t.isLt) hk, BitVec.ofNat_toNat, BitVec.setWidth_eq]

/-- In EXP's range no index wraps: the four words are those at the differences in N. -/
theorem expandedWord_eq (w : Words64) {t : BitVec 6} (ht : 16 ≤ t.toNat) : expandedWord w t =
    getWord w (BitVec.ofNat 6 (t.toNat - 16)) + ssig0 (getWord w (BitVec.ofNat 6 (t.toNat - 15))) +
      getWord w (BitVec.ofNat 6 (t.toNat - 7)) + ssig1 (getWord w (BitVec.ofNat 6 (t.toNat - 2))) := by
  rw [ofNat_toNat_sub ht, ofNat_toNat_sub (by omega), ofNat_toNat_sub (by omega), ofNat_toNat_sub (by omega)]
  rfl

/-- In each of the four ranges of eight bits one shifted byte has a bit there and the other three have zeros. -/
theorem be32_eq_append (b0 b1 b2 b3 : Byte) : be32 b0 b1 b2 b3 = b0 ++ b1 ++ b2 ++ b3 := by
  apply BitVec.eq_of_getLsbD_eq
  intro i hi
  simp only [be32, BitVec.getLsbD_or, BitVec.getLsbD_shiftLeft, BitVec.getLsbD_setWidth, BitVec.getLsbD_append]
  split_ifs <;> grind

/-! ## `Schedule` -/

/-- The expansion from `k` on leaves the words below `k`. -/
theorem getWord_expand_below {n k : Nat} (w : Words64) {i : BitVec 6} (hn : k + n ≤ 64) (hi : i.toNat < k) :
    getWord ((List.range' k n).foldl expandStep w) i = getWord w i := by
  induction n generalizing k w with
  | zero => rfl
  | succ n ih =>
    have hne : BitVec.ofNat 6 k ≠ i := by bv_omega
    rw [List.range'_succ, List.foldl_cons, ih _ (by omega) (by omega), expandStep, getWord_setWord_other _ _ hne]

/-- Each word the expansion reaches satisfies the recurrence in the finished schedule, because the later steps leave the words
it was computed from. -/
theorem getWord_expand_recurrence {n k : Nat} (w : Words64) {i : BitVec 6} (hk : 16 ≤ k) (hn : k + n ≤ 64)
    (hki : k ≤ i.toNat) (hi : i.toNat < k + n) :
    getWord ((List.range' k n).foldl expandStep w) i = expandedWord ((List.range' k n).foldl expandStep w) i := by
  induction n generalizing k w with
  | zero => omega
  | succ n ih =>
    obtain hlt | heq := Nat.lt_or_eq_of_le hki
    · rw [List.range'_succ, List.foldl_cons]
      exact ih _ (by omega) (by omega) hlt (by omega)
    · subst heq
      have hfinal : expandedWord w i = expandedWord ((List.range' i.toNat (n + 1)).foldl expandStep w) i :=
        expandedWord_congr hk fun j hj => (getWord_expand_below w hn hj).symm
      rw [← hfinal, List.range'_succ, List.foldl_cons, getWord_expand_below _ (by omega) (by omega), expandStep,
        BitVec.ofNat_toNat, BitVec.setWidth_eq, getWord_setWord_same]

theorem getWord_schedule_loaded (b : Block) {i : BitVec 6} (hi : i.toNat < 16) :
    getWord (schedule b) i = blockWord b i.toNat hi := by
  rw [schedule_eq, getWord_expand_below _ (by omega) hi, getWord_loadedWords b i hi]

theorem getWord_schedule_expanded (b : Block) {i : BitVec 6} (hi : 16 ≤ i.toNat) :
    getWord (schedule b) i = expandedWord (schedule b) i := by
  rw [schedule_eq, getWord_expand_recurrence _ (by omega) (by omega) hi (by omega)]

theorem loadedWords_zero : loadedWords (Vector.replicate 64 0x00#8) = Vector.replicate 64 0#32 := by
  have hword : be32 0x00#8 0x00#8 0x00#8 0x00#8 = 0#32 := rfl
  apply Vector.ext
  intro i _
  simp [loadedWords, blockWord, hword]

theorem getWord_zero (i : BitVec 6) : getWord (Vector.replicate 64 0#32) i = 0#32 := by
  simp [getWord]

/-- The all-zero schedule is a fixed point, `ssig0(0)` and `ssig1(0)` being 0. -/
theorem expandStep_zero (t : Nat) : expandStep (Vector.replicate 64 0#32) t = Vector.replicate 64 0#32 := by
  apply words64_ext
  intro i
  rw [expandStep, getWord_setWord, expandedWord]
  simp only [getWord_zero]
  split <;> rfl

theorem schedule_zero : schedule (Vector.replicate 64 0x00#8) = Vector.replicate 64 0#32 := by
  rw [schedule_eq, loadedWords_zero, List.foldl_fixed' expandStep_zero]

/-! ## LDW and EXP: their codes, and the one word they write -/

theorem decode_ldwCode {t : BitVec 6} (ht : t.toNat < 16) : decode (.useq (engineCode 1#3 t)) = .ok (.ldw t) := by
  simp [decode, decodeEngine, ht]

theorem decode_expCode {t : BitVec 6} (ht : 16 ≤ t.toNat) : decode (.useq (engineCode 2#3 t)) = .ok (.exp t) := by
  simp [decode, decodeEngine, ht]

theorem exec_ldw (t : BitVec 6) (s : State) : exec (.ldw t) s = execLdw t s := rfl

theorem exec_exp (t : BitVec 6) (s : State) : exec (.exp t) s = execExp t s := rfl

end Sys2Proof.Machine

namespace Sys2Proof

/-! ## The obligations -/

open Machine

/-- Settles O27: LDW writes `BE32` of the four bytes at T, which is their concatenation, and only word T. -/
theorem ldwLoadsABigEndianWord : Obligations.LdwLoadsABigEndianWord := by
  intro s t b0 b1 b2 b3 ht h0 h1 h2 h3
  refine ⟨decode_ldwCode ht, s.writeW t (be32 b0 b1 b2 b3), (exec_ldw t s).trans (execLdw_next ht h0 h1 h2 h3), ?_,
    fun i hi => getWord_setWord_other s.w _ hi.symm, rfl⟩
  rw [State.writeW_w, getWord_setWord_same, be32_eq_append]

/-- Settles O28: EXP writes the expanded word at T, its four indexes without wrapping, and only word T. -/
theorem expExpandsOneWord : Obligations.ExpExpandsOneWord := by
  intro s t ht
  refine ⟨decode_expCode ht, s.writeW t (expandedWord s.w t), (exec_exp t s).trans (execExp_next ht), ?_,
    fun i hi => getWord_setWord_other s.w _ hi.symm, rfl⟩
  rw [State.writeW_w, getWord_setWord_same, expandedWord_eq s.w ht]

/-- Settles O30: the words below 16 are never overwritten, each later word keeps the words it was computed from, and the
all-zero schedule is a fixed point of the expansion. -/
theorem scheduleMeetsItsRecurrence : Obligations.ScheduleMeetsItsRecurrence := by
  refine ⟨fun b t ht => ?_, fun b t ht hl => ?_, schedule_zero⟩
  · have hi : (BitVec.ofNat 6 t).toNat = t := toNat_ofNat_lt (by omega)
    rw [← getWord_ofNat _ (by omega), getWord_schedule_loaded b (by omega)]
    simp only [hi, blockWord, be32_eq_append]
  · have hi : (BitVec.ofNat 6 t).toNat = t := toNat_ofNat_lt hl
    rw [← getWord_ofNat _ hl, getWord_schedule_expanded b (by omega), expandedWord_eq _ (by omega), hi,
      getWord_ofNat _ (by omega), getWord_ofNat _ (by omega), getWord_ofNat _ (by omega), getWord_ofNat _ (by omega)]

/-- Settles O31: bit by bit, exclusive or and the shift act at one index and the rotation at `(i + n) mod 32`. -/
theorem sigmaFunctionsBitByBit : Obligations.SigmaFunctionsBitByBit := fun x _ hi =>
  ⟨fun _ hn => getLsbD_rotr x hn hi, getLsbD_ssig0 x hi, getLsbD_ssig1 x hi, getLsbD_bsig0 x hi, getLsbD_bsig1 x hi⟩

end Sys2Proof

/-! The compression engine (42_compression.md): Ch and Maj bit by bit (R152, R153), LDV, RND and ADDH with their codes (R160
to R162), and `Compress` one block at a time (R165). -/

namespace Sys2Proof.Machine

/-! ## The bits of Ch and Maj -/

theorem getLsbD_ch (x y z : Word) {i : Nat} (hi : i < 32) :
    (ch x y z).getLsbD i = if x.getLsbD i then y.getLsbD i else z.getLsbD i := by
  rw [ch, BitVec.getLsbD_xor, BitVec.getLsbD_and, BitVec.getLsbD_and, BitVec.getLsbD_not, decide_eq_true hi]
  cases x.getLsbD i with
  | true => simp
  | false => simp

theorem getLsbD_maj (x y z : Word) (i : Nat) : (maj x y z).getLsbD i =
    ((x.getLsbD i && y.getLsbD i) ^^ (x.getLsbD i && z.getLsbD i) ^^ (y.getLsbD i && z.getLsbD i)) := by
  simp only [maj, BitVec.getLsbD_xor, BitVec.getLsbD_and]

/-- Of the three pairs, one is all ones when two bits are 1, three when all are, none otherwise. -/
theorem xor_pairs_eq_true_iff (a b c : Bool) :
    ((a && b) ^^ (a && c) ^^ (b && c)) = true ↔ 2 ≤ a.toNat + b.toNat + c.toNat := by
  revert a b c; decide

/-! ## LDV, RND and ADDH: their codes, and the registers they write -/

theorem decode_ldvCode : decode (.useq (engineCode 3#3 0#6)) = .ok .ldv := by
  simp [decode, decodeEngine]

theorem decode_rndCode (t : BitVec 6) : decode (.useq (engineCode 4#3 t)) = .ok (.rnd t) := by
  simp [decode, decodeEngine]

theorem decode_addhCode : decode (.useq (engineCode 5#3 0#6)) = .ok .addh := by
  simp [decode, decodeEngine]

theorem exec_ldv (s : State) : exec .ldv s = execLdv s := rfl

theorem exec_rnd (t : BitVec 6) (s : State) : exec (.rnd t) s = execRnd t s := rfl

theorem exec_addh (s : State) : exec .addh s = execAddh s := rfl

theorem getElem_addWords (h v : Words8) {i : Nat} (hi : i < 8) : (addWords h v)[i] = h[i] + v[i] := by
  rw [addWords, Vector.getElem_ofFn]; rfl

/-! ## `Compress` -/

theorem compress_eq_none {s0 : Words8} {p : List Byte} (h : p.length % 64 ≠ 0) : compress s0 p = none := if_neg h

theorem compress_of_length {p : List Byte} {n : Nat} (s0 : Words8) (h : p.length = 64 * n) :
    compress s0 p = some (compressBlocks s0 p n) := by
  have hn : p.length / 64 = n := by omega
  rw [compress_eq_some (by omega), hn]

theorem length_mod_of_compress {s0 s : Words8} {p : List Byte} (h : compress s0 p = some s) : p.length % 64 = 0 := by
  by_contra hp
  cases (compress_eq_none hp).symm.trans h

/-- The block after `n` whole blocks is the one appended to them. -/
theorem blockAt_append_block {p : List Byte} {n : Nat} (b : Block) (h : p.length = 64 * n) :
    blockAt (p ++ b.toList) n = b := by
  apply Vector.ext
  intro j hj
  have hsub : 64 * n + j - p.length = j := by omega
  rw [blockAt, Vector.getElem_ofFn, List.getD_append_right _ _ _ _ (by omega), hsub,
    List.getD_eq_getElem _ _ (by simpa using hj), Vector.getElem_toList]

theorem compressBlocks_append_block {p : List Byte} {n : Nat} (s0 : Words8) (b : Block) (h : p.length = 64 * n) :
    compressBlocks s0 (p ++ b.toList) (n + 1) = compressBlock (compressBlocks s0 p n) b := by
  rw [compressBlocks_succ, compressBlocks_append h.ge, blockAt_append_block b h]

theorem compress_append_block {s0 s : Words8} {p : List Byte} (b : Block) (h : compress s0 p = some s) :
    compress s0 (p ++ b.toList) = some (compressBlock s b) := by
  obtain ⟨n, hn⟩ := Nat.dvd_of_mod_eq_zero (length_mod_of_compress h)
  obtain rfl : compressBlocks s0 p n = s := Option.some.inj ((compress_of_length s0 hn).symm.trans h)
  have hlen : (p ++ b.toList).length = 64 * (n + 1) := by
    rw [List.length_append, hn, Vector.length_toList, Nat.mul_succ]
  rw [compress_of_length s0 hlen, compressBlocks_append_block s0 b hn]

end Sys2Proof.Machine

namespace Sys2Proof

/-! ## The obligations -/

open Machine

/-- Settles O39: appending a block leaves the blocks before it, and the one fold step more is on that block. -/
theorem compressFoldsWholeBlocks : Obligations.CompressFoldsWholeBlocks := fun s0 _ =>
  ⟨compress_eq_none, compress_of_length s0 (n := 0) rfl, fun _ b => compress_append_block b⟩

/-- Settles O32: the bit of `x` masks one of the two terms of Ch, and Maj is the exclusive or of the three pairs. -/
theorem chSelectsAndMajIsTheMajority : Obligations.ChSelectsAndMajIsTheMajority := fun x y z i hi =>
  ⟨getLsbD_ch x y z hi, by rw [getLsbD_maj, xor_pairs_eq_true_iff]⟩

/-- Settles O33: LDV only sets V, and to H. -/
theorem ldvCopiesTheDigestState : Obligations.LdvCopiesTheDigestState :=
  ⟨decode_ldvCode, fun s => ⟨s.setV s.h, (exec_ldv s).trans (execLdv_next s), fun _ _ => rfl, rfl⟩⟩

/-- Settles O34: RND only sets V, to the eight words that `round` lists. -/
theorem rndIsOneRound : Obligations.RndIsOneRound := fun s t =>
  ⟨decode_rndCode t, s.setV (round s.v (readK t) (s.readW t)), (exec_rnd t s).trans (execRnd_next t s),
    rfl, rfl, rfl, rfl, rfl, rfl, rfl, rfl, rfl⟩

/-- Settles O35: ADDH only sets H, to the word by word sum. -/
theorem addhAddsTheWorkingVariables : Obligations.AddhAddsTheWorkingVariables :=
  ⟨decode_addhCode, fun s => ⟨s.setH (addWords s.h s.v), (exec_addh s).trans (execAddh_next s),
    fun _ => getElem_addWords s.h s.v, rfl⟩⟩

end Sys2Proof

/-! The digest (43_digest_output.md): the port's bytes (R180, R181), and a whole message from a startable state (R186, R187):
START, each DATA and LAST as steps, and what of the finished state the host sees. -/

namespace Sys2Proof.Machine

/-! ## The bytes of the digest -/

/-- Byte `4i + j` of eight words in a row lies whole in word `i`: the words after it are dropped from the low end, and it does
not reach those before. -/
theorem portByte_digestWord (h : Words8) {i j : Nat} (hi : i < 8) (hj : j < 4) :
    portByte (digestWord h) (4 * i + j) = h[i].extractLsb' (24 - 8 * j) 8 := by
  have hstart : 248 - 8 * (4 * i + j) = 24 - 8 * j + 32 * (7 - i) := by omega
  rw [portByte, hstart, digestWord]
  interval_cases i <;>
    simp (disch := omega) only [BitVec.extractLsb'_append_eq_of_le, BitVec.extractLsb'_append_eq_of_add_le,
      Nat.reduceMul, Nat.reduceSub, Nat.reduceSubDiff, Nat.add_zero]

@[simp] theorem be32bytes_length (x : Word) : (be32bytes x).length = 4 := rfl

theorem be32bytes_getElem? (x : Word) {j : Nat} (hj : j < 4) : (be32bytes x)[j]? = some (x.extractLsb' (24 - 8 * j) 8) := by
  rw [be32bytes, List.getElem?_map, List.getElem?_range hj, Option.map_some]

/-- Every word takes four bytes, so byte `j` of word `i` stands at `4i + j`. -/
theorem flatMap_be32bytes_getElem? (ws : List Word) (i : Nat) {j : Nat} (hj : j < 4) :
    (ws.flatMap be32bytes)[4 * i + j]? = ws[i]?.map fun x => x.extractLsb' (24 - 8 * j) 8 := by
  induction ws generalizing i with
  | nil => rfl
  | cons x ws ih =>
    rw [List.flatMap_cons]
    cases i with
    | zero =>
      rw [Nat.mul_zero, Nat.zero_add, List.getElem?_append_left (by rw [be32bytes_length]; exact hj), be32bytes_getElem? x hj]
      rfl
    | succ i =>
      have hsub : 4 * (i + 1) + j - 4 = 4 * i + j := by omega
      rw [List.getElem?_append_right (by rw [be32bytes_length]; omega), be32bytes_length, hsub, ih,
        List.getElem?_cons_succ]

theorem digestBytes_length (h : Words8) : (digestBytes h).length = 32 := by
  simp [digestBytes, List.length_flatMap]

theorem digestBytes_getElem? (h : Words8) {i j : Nat} (hi : i < 8) (hj : j < 4) :
    (digestBytes h)[4 * i + j]? = some (h[i].extractLsb' (24 - 8 * j) 8) := by
  rw [digestBytes, flatMap_be32bytes_getElem? _ _ hj, Vector.getElem?_toList, Vector.getElem?_eq_getElem hi, Option.map_some]

theorem portBytes_length (d : BitVec 256) : (portBytes d).length = 32 := by
  rw [portBytes, List.length_map, List.length_range]

/-- Both lists have at index `k` byte `k mod 4` of word `k / 4`. -/
theorem portBytes_digestWord (h : Words8) : portBytes (digestWord h) = digestBytes h := by
  refine List.ext_getElem? fun k => ?_
  by_cases hk : k < 32
  · obtain ⟨i, j, hi, hj, rfl⟩ : ∃ i j, i < 8 ∧ j < 4 ∧ k = 4 * i + j := ⟨k / 4, k % 4, by omega, by omega, by omega⟩
    rw [digestBytes_getElem? h hi hj, portBytes, List.getElem?_map, List.getElem?_range hk, Option.map_some,
      portByte_digestWord h hi hj]
  · rw [List.getElem?_eq_none (by rw [portBytes_length]; omega), List.getElem?_eq_none (by rw [digestBytes_length]; omega)]

theorem State.portDigest_done {s : State} (h : s.st = .done) : s.portDigest = some (digestWord s.h) := if_pos h

/-! ## DATA and LAST on an open message -/

theorem exec_start (len : DWord) (s : State) : exec (.start len) s = execStart len s := rfl

theorem exec_data (b : Byte) (s : State) : exec (.data b) s = execData b s := rfl

theorem exec_last (s : State) : exec .last s = execLast s := rfl

theorem State.PushFrame.countByte {s u : State} (h : s.PushFrame u) : s.countByte.PushFrame u.countByte :=
  ⟨h.dlen, congrArg (· + 1#64) h.cnt, h.st, h.cause, h.pp, h.li, h.cmd, h.busy, h.host, h.buffer, h.outside, h.engine⟩

theorem State.PushFrame.atBoundary {s u : State} (h : s.PushFrame u) (hb : s.AtBoundary) : u.AtBoundary := by
  obtain ⟨⟨hpp, hli, hengine⟩, hbusy⟩ := hb
  exact ⟨⟨h.pp.trans hpp, h.li.trans hli, h.engine hengine⟩, h.busy.trans hbusy⟩

theorem atBoundary_padderAt_finish {s : State} (hb : s.AtBoundary) : (s.padderAt .msg 0#3).finish.AtBoundary := by
  obtain ⟨⟨-, -, hengine⟩, hbusy⟩ := hb
  exact ⟨⟨rfl, rfl, hengine⟩, hbusy⟩

/-- DATA below the longest message is the PUSH of its byte, then the count (40_padder.md R106). -/
theorem execData_absorb {s : State} (b : Byte) (hst : s.st = .absorb) (hc : s.cnt.toNat ≠ maxMessageBytes) :
    execData b s = andThen (push b s) fun u => .next u.countByte :=
  (inPhase_admitted (by simp [hst]) (by rw [hst]; rfl)).trans (if_neg hc)

/-- LAST with the declared length right is PADSEQ (R107). -/
theorem execLast_absorb {s : State} (hst : s.st = .absorb) (hd : 8 * s.cnt.toNat = s.dlen.toNat) : execLast s = padseq s :=
  (inPhase_admitted (by simp [hst]) (by rw [hst]; rfl)).trans (if_neg (not_not.2 hd))

/-- DATA extends an open message by its byte, and but for the stream and CNT leaves the state. -/
theorem execData_extends {s : State} {m : List Byte} (b : Byte) (hs : s.Absorbing m) (hm : m.length < maxMessageBytes) :
    ∃ t, execData b s = .next t ∧ t.Absorbing (m ++ [b]) ∧ s.countByte.PushFrame t := by
  obtain ⟨hst, hcount, -, hstream⟩ := hs
  obtain ⟨u, hu, hus, huf, -⟩ := push_streamed (x := b) hstream
  refine ⟨u.countByte, ?_, ⟨huf.st.trans hst, ?_, ?_, hus.congr rfl rfl rfl rfl⟩, huf.countByte⟩
  · rw [execData_absorb b hst (by omega), hu, andThen_next]
  · unfold maxMessageBytes at hm
    rw [State.countByte_cnt, huf.cnt, List.length_append, List.length_singleton]
    bv_omega
  · rw [List.length_append, List.length_singleton]
    exact hm

/-- What PADSEQ pushes after the message is the rest of `Pad(m)` (R108, R109, R115). -/
theorem padBytes_eq_pushed {m : List Byte} {dlen : DWord} (hd : dlen.toNat = 8 * m.length) : padBytes m =
    m ++ [0x80#8] ++ List.replicate ((119 - m.length % 64) % 64) 0x00#8 ++ be64bytes dlen := by
  rw [padBytes, zeroCount_eq, ← hd, BitVec.ofNat_toNat, BitVec.setWidth_eq]

/-- LAST finishes an open message of the declared length, and but for the stream, ST, PP and LI leaves the state. -/
theorem execLast_finishes {s : State} {m : List Byte} (hs : s.Absorbing m) (hd : s.dlen.toNat = 8 * m.length) :
    ∃ t, execLast s = .next t ∧ t.Finished m ∧ (s.padderAt .msg 0#3).finish.PushFrame t := by
  obtain ⟨hst, hcount, hbound, hstream⟩ := hs
  have hdeclared : 8 * s.cnt.toNat = s.dlen.toNat := by omega
  obtain ⟨t, ht, hpushed, hframe, -, -⟩ := padseq_streamed hstream
  rw [← padBytes_eq_pushed hd] at hpushed
  obtain ⟨hoff, -, hnblk, hh⟩ := hpushed
  have hlen : (padBytes m).length = 64 * ((m.length + 8) / 64 + 1) := by rw [padBytes_length, paddedLen_eq]
  refine ⟨t, (execLast_absorb hst hdeclared).trans ht, ⟨hframe.st, ?_, ?_, ?_, ?_, ?_⟩, hframe⟩
  · exact (congrArg BitVec.toNat hframe.cnt).trans hcount
  · rw [hframe.cnt, hframe.dlen]
    exact hdeclared
  · refine BitVec.eq_of_toNat_eq (hoff.trans ?_)
    rw [hlen, Nat.mul_mod_right]
    rfl
  · have hfits : paddedLen m.length / 64 < 2 ^ 64 := by
      unfold maxMessageBytes at hbound
      rw [paddedLen_eq]
      omega
    rw [hnblk, BitVec.zero_add, BitVec.toNat_ofNat, padBytes_length, Nat.mod_eq_of_lt hfits]
  · rw [finalState_eq hbound, hh, padBytes_length]

/-! ## The commands of a message as steps -/

theorem decode_dataWord (b : Byte) : decode (.cmd (dataWord b)) = .ok (.data b) := by
  rw [decode_cmd_data (w := dataWord b) (opcodeOf_commandWord _ _) (reservedOf_commandWord _ _ _), byteOf_dataWord]

theorem decode_lastWord : decode (.cmd lastWord) = .ok .last :=
  decode_cmd_last (opcodeOf_commandWord _ _) (payloadOf_commandWord _ _)

theorem step_boundary_decoded {s : State} {w : BitVec 72} {rest : List HostEvent} {i : Instr} (hb : s.AtBoundary)
    (hh : s.host = .command w :: rest) (hd : decode (.cmd w) = .ok i) : step s = exec i (s.accept w rest) := by
  rw [step_boundary_command hb hh, stepCommand, hd]

theorem State.Absorbing.accept {s : State} {m : List Byte} (hs : s.Absorbing m) (w : BitVec 72) (rest : List HostEvent) :
    (s.accept w rest).Absorbing m :=
  ⟨hs.st, hs.count, hs.bound, hs.stream.congr rfl rfl rfl rfl⟩

/-- A boundary inside a message declared `n` bytes long: `p` of it has been accepted, and the host goes on with `events`. -/
structure State.Receiving (s : State) (p : List Byte) (n : Nat) (events : List HostEvent) : Prop where
  boundary : s.AtBoundary
  cause : s.cause = .none
  absorbing : s.Absorbing p
  declared : s.dlen = BitVec.ofNat 64 (8 * n)
  host : s.host = events

/-- A boundary after the message `m`, the host going on with `rest`. -/
structure State.Delivered (s : State) (m : List Byte) (rest : List HostEvent) : Prop where
  boundary : s.AtBoundary
  cause : s.cause = .none
  finished : s.Finished m
  host : s.host = rest

theorem step_start_receives {s : State} {n : Nat} {events : List HostEvent} (hb : s.AtBoundary)
    (hst : s.st = .idle ∨ s.st = .done) (hc : s.cause = .none)
    (hh : s.host = .command (startWord (BitVec.ofNat 64 (8 * n))) :: events) :
    ∃ t, step s = .next t ∧ t.Receiving [] n events := by
  refine ⟨_, (step_boundary_decoded hb hh (decode_startWord _)).trans
    ((exec_start _ _).trans (execStart_opens _ hst)), hb, hc, ?_, rfl, rfl⟩
  exact ⟨rfl, rfl, Nat.zero_le _, streamed_nil rfl⟩

theorem step_data_receives {s : State} {p : List Byte} {n : Nat} {b : Byte} {events : List HostEvent}
    (hs : s.Receiving p n (.command (dataWord b) :: events)) (hp : p.length < maxMessageBytes) :
    ∃ t, step s = .next t ∧ t.Receiving (p ++ [b]) n events := by
  obtain ⟨hb, hc, ha, hd, hh⟩ := hs
  obtain ⟨t, ht, hta, htf⟩ := execData_extends b (ha.accept (dataWord b) events) hp
  refine ⟨t, ?_, htf.atBoundary hb, htf.cause.trans hc, hta, htf.dlen.trans hd, htf.host⟩
  rw [step_boundary_decoded hb hh (decode_dataWord b), exec_data, ht]

theorem step_last_delivers {s : State} {m : List Byte} {rest : List HostEvent}
    (hs : s.Receiving m m.length (.command lastWord :: rest)) : ∃ t, step s = .next t ∧ t.Delivered m rest := by
  obtain ⟨hb, hc, ha, hd, hh⟩ := hs
  have hlen : s.dlen.toNat = 8 * m.length := by
    have hbound := ha.bound
    unfold maxMessageBytes at hbound
    rw [hd, BitVec.toNat_ofNat, Nat.mod_eq_of_lt (by omega)]
  obtain ⟨t, ht, htm, htf⟩ := execLast_finishes (ha.accept lastWord rest) hlen
  refine ⟨t, ?_, htf.atBoundary (atBoundary_padderAt_finish hb), htf.cause.trans hc, htm, htf.host⟩
  rw [step_boundary_decoded hb hh decode_lastWord, exec_last, ht]

/-- The DATA commands for `q`, one step each. -/
theorem run_data_receives {s : State} {p q : List Byte} {n : Nat} {events : List HostEvent}
    (hs : s.Receiving p n (q.map (fun b => .command (dataWord b)) ++ events)) (hq : p.length + q.length ≤ maxMessageBytes) :
    ∃ t, run q.length s = .next t ∧ t.Receiving (p ++ q) n events := by
  induction q generalizing s p with
  | nil => exact ⟨s, run_zero s, by simpa using hs⟩
  | cons b q ih =>
    rw [List.length_cons] at hq
    obtain ⟨u, hu, hur⟩ := step_data_receives hs (by omega)
    obtain ⟨t, ht, htr⟩ := ih hur (by rw [List.length_append, List.length_singleton]; omega)
    refine ⟨t, ?_, by simpa using htr⟩
    rw [List.length_cons, run_succ, hu, andThen_next, ht]

theorem messageEvents_append (m : List Byte) (rest : List HostEvent) : messageEvents m ++ rest =
    .command (startWord (BitVec.ofNat 64 (8 * m.length))) ::
      (m.map (fun b => .command (dataWord b)) ++ .command lastWord :: rest) := by
  rw [messageEvents, List.cons_append, List.append_assoc, List.singleton_append]

/-- The commands of a message, from any state that can start one, finish it in `n + 2` steps (43_digest_output.md R186). -/
theorem runsTo_delivered {s : State} {m : List Byte} {rest : List HostEvent} (hb : s.AtBoundary)
    (hst : s.st = .idle ∨ s.st = .done) (hc : s.cause = .none) (hm : m.length ≤ maxMessageBytes)
    (hh : s.host = messageEvents m ++ rest) : ∃ t, s.RunsTo (m.length + 2) t ∧ t.Delivered m rest := by
  obtain ⟨s1, h1, hr1⟩ := step_start_receives hb hst hc (hh.trans (messageEvents_append m rest))
  obtain ⟨s2, h2, hr2⟩ := run_data_receives hr1 (by rw [List.length_nil]; omega)
  obtain ⟨t, ht, hd⟩ := step_last_delivers hr2
  refine ⟨t, ?_, hd⟩
  rw [State.RunsTo, run_succ, h1, andThen_next, run_add, h2, andThen_next, run_succ, ht, andThen_next, run_zero]

/-! ## What the host sees -/

/-- ST, NBLK and H of a finished message are those of the message, so with CAUSE the ports are too. -/
theorem State.Finished.observe_eq {s u : State} {m : List Byte} (hs : s.Finished m) (hu : u.Finished m)
    (hc : s.cause = u.cause) : s.observe = u.observe := by
  have hst : s.st = u.st := hs.st.trans hu.st.symm
  have hnblk : s.nblk = u.nblk := BitVec.eq_of_toNat_eq (hs.nblk.trans hu.nblk.symm)
  have hh : s.h = u.h := Option.some.inj (hs.h.symm.trans hu.h)
  simp only [State.observe, State.portSt, State.portCause, State.portNblk, State.portDigest, hst, hc, hnblk, hh]

end Sys2Proof.Machine

namespace Sys2Proof

/-! ## The obligations -/

open Machine

/-- Settles O49: both runs finish the same message with no cause recorded, and the ports are a function of that. -/
theorem noLeakageBetweenMessages : Obligations.NoLeakageBetweenMessages := by
  intro s s' m rest rest' hb hb' hst hst' hc hc' hm hh hh'
  obtain ⟨t, ht, hd⟩ := runsTo_delivered hb hst hc hm hh
  obtain ⟨t', ht', hd'⟩ := runsTo_delivered hb' hst' hc' hm hh'
  exact ⟨t, t', ht, ht', hd.finished.observe_eq hd'.finished (hd.cause.trans hd'.cause.symm)⟩

/-- Settles O40: byte `4i + j` of the port and of `DigestBytes(H)` are both byte `j` of `H[i]`. -/
theorem digestPortShowsTheDigestBytes : Obligations.DigestPortShowsTheDigestBytes := fun s h =>
  ⟨digestWord s.h, State.portDigest_done h, rfl, portBytes_digestWord s.h, digestBytes_length s.h,
    fun _ hi _ hj => digestBytes_getElem? s.h hi hj⟩

end Sys2Proof

/-! The cause that each command word records (60_exceptions.md R191 to R195, R199): DATA and LAST by status and count, all
that PADSEQ leaves of the control registers, and the status and cause after each command. -/

namespace Sys2Proof.Machine

theorem Status.idle_or_done {st : Status} (hf : st ≠ .fault) (ha : st ≠ .absorb) : st = .idle ∨ st = .done := by
  cases st with
  | idle => exact .inl rfl
  | absorb => exact absurd rfl ha
  | done => exact .inr rfl
  | fault => exact absurd rfl hf

/-! ## DATA and LAST where they record a cause -/

theorem execData_outOfPhase {s : State} (b : Byte) (h : s.st = .idle ∨ s.st = .done) :
    execData b s = .next (s.enterFault .badPhase) := by
  obtain h | h := h <;> exact inPhase_refused (by simp [h]) (by rw [h]; rfl)

theorem execLast_outOfPhase {s : State} (h : s.st = .idle ∨ s.st = .done) :
    execLast s = .next (s.enterFault .badPhase) := by
  obtain h | h := h <;> exact inPhase_refused (by simp [h]) (by rw [h]; rfl)

theorem execData_overflow {s : State} (b : Byte) (hst : s.st = .absorb) (hc : s.cnt.toNat = maxMessageBytes) :
    execData b s = .next (s.enterFault .lenOverflow) :=
  (inPhase_admitted (by simp [hst]) (by rw [hst]; rfl)).trans (if_pos hc)

theorem execLast_mismatch {s : State} (hst : s.st = .absorb) (hd : 8 * s.cnt.toNat ≠ s.dlen.toNat) :
    execLast s = .next (s.enterFault .lenMismatch) :=
  (inPhase_admitted (by simp [hst]) (by rw [hst]; rfl)).trans (if_pos hd)

/-! ## What DATA and PADSEQ leave of the control registers, wherever they complete -/

theorem execData_frame {s t : State} {b : Byte} (hst : s.st = .absorb) (hc : s.cnt.toNat ≠ maxMessageBytes)
    (h : execData b s = .next t) : s.countByte.PushFrame t := by
  rw [execData_absorb b hst hc] at h
  obtain ⟨u, hu, ht⟩ := andThen_eq_next.1 h
  cases ht
  exact (push_frame hu).countByte

theorem zerosLoop_frame {fuel : Nat} {s u : State} (h : zerosLoop fuel s = .next u) : s.PushFrame u := by
  induction fuel generalizing s with
  | zero =>
    cases h
    exact .refl _
  | succ fuel ih =>
    rw [zerosLoop] at h
    by_cases ho : s.off = 56#6
    · rw [if_pos ho] at h
      cases h
      exact .refl _
    · rw [if_neg ho] at h
      obtain ⟨x, hx, hu⟩ := andThen_eq_next.1 h
      exact (push_frame hx).trans (ih hu)

theorem State.PushFrame.finish {s u : State} (h : s.PushFrame u) : s.finish.PushFrame u.finish :=
  ⟨h.dlen, h.cnt, rfl, h.cause, h.pp, h.li, h.cmd, h.busy, h.host, h.buffer, h.outside, h.engine⟩

theorem lengthLoop_frame {n : Nat} {s u : State} (h : lengthLoop n s = .next u) :
    (s.padderAt s.pp (s.li + BitVec.ofNat 3 n)).PushFrame u := by
  induction n generalizing s with
  | zero =>
    cases h
    rw [BitVec.add_zero]
    exact .refl _
  | succ n ih =>
    rw [lengthLoop] at h
    obtain ⟨x, hx, hu⟩ := andThen_eq_next.1 h
    have hf : s.PushFrame x := push_frame hx
    have hli : s.li + BitVec.ofNat 3 (n + 1) = x.li + 1#3 + BitVec.ofNat 3 n := by
      rw [hf.li, BitVec.add_assoc, ← BitVec.ofNat_add, Nat.add_comm n 1]
    rw [hli, ← hf.pp]
    exact (hf.padderAt _ _).trans (ih hu)

/-- Where PADSEQ (40_padder.md R108) completes it ends in DONE with the padder quiescent, whatever was in B. -/
theorem padseq_frame {s t : State} (h : padseq s = .next t) : (s.padderAt .msg 0#3).finish.PushFrame t := by
  rw [padseq] at h
  obtain ⟨u, hu, h⟩ := andThen_eq_next.1 h
  obtain ⟨x, hx, h⟩ := andThen_eq_next.1 h
  obtain ⟨y, hy, h⟩ := andThen_eq_next.1 h
  cases h
  have hmark : (s.padderAt .msg 0#3).PushFrame (u.padderAt .msg 0#3) := (push_frame hu).padderAt _ _
  have hzeros : (u.padderAt .msg 0#3).PushFrame (x.padderAt .msg 0#3) := (zerosLoop_frame hx).padderAt _ _
  have hlength : (x.padderAt .msg 0#3).PushFrame (y.padderAt .msg 0#3) := (lengthLoop_frame hy).padderAt _ _
  have hli : y.li = 0#3 := (lengthLoop_frame hy).li
  rw [hli]
  exact (hmark.trans (hzeros.trans hlength)).finish

/-! ## The status and the cause after a command -/

/-- A command ends with `c` in CAUSE, and in FAULT exactly when `c` is a cause (60_exceptions.md R196). -/
structure State.Records (t : State) (c : Cause) : Prop where
  cause : t.cause = c
  fault : t.st = .fault ↔ c ≠ .none

theorem records_of_raise {r : Result} {s t : State} {c : Cause} (hr : r = .next (s.enterFault c)) (hc : c ≠ .none)
    (h : r = .next t) : t.Records c := by
  cases hr.symm.trans h
  exact ⟨rfl, by simp [hc]⟩

theorem State.PushFrame.records_none {s t : State} (h : s.PushFrame t) (hst : s.st ≠ .fault) (hc : s.cause = .none) :
    t.Records .none :=
  ⟨h.cause.trans hc, by simp [h.st, hst]⟩

section
variable {s t : State} (hf : s.st ≠ .fault) (hc : s.cause = .none)
include hf hc

theorem execStart_records {len : DWord} (h : execStart len s = .next t) :
    t.Records (if s.st = .absorb then .badPhase else .none) := by
  by_cases ha : s.st = .absorb
  · rw [if_pos ha]
    exact records_of_raise (execStart_absorb len ha) (by decide) h
  · rw [if_neg ha]
    cases (execStart_opens len (Status.idle_or_done hf ha)).symm.trans h
    exact ⟨hc, by simp⟩

theorem execData_records {b : Byte} (h : execData b s = .next t) :
    t.Records (if s.st ≠ .absorb then .badPhase else if s.cnt.toNat = maxMessageBytes then .lenOverflow else .none) := by
  by_cases ha : s.st = .absorb
  · rw [if_neg (not_not.2 ha)]
    by_cases hm : s.cnt.toNat = maxMessageBytes
    · rw [if_pos hm]
      exact records_of_raise (execData_overflow b ha hm) (by decide) h
    · rw [if_neg hm]
      exact (execData_frame ha hm h).records_none hf hc
  · rw [if_pos ha]
    exact records_of_raise (execData_outOfPhase b (Status.idle_or_done hf ha)) (by decide) h

theorem execLast_records (h : execLast s = .next t) : t.Records
    (if s.st ≠ .absorb then .badPhase else if 8 * s.cnt.toNat ≠ s.dlen.toNat then .lenMismatch else .none) := by
  by_cases ha : s.st = .absorb
  · rw [if_neg (not_not.2 ha)]
    by_cases hd : 8 * s.cnt.toNat = s.dlen.toNat
    · rw [if_neg (not_not.2 hd)]
      rw [execLast_absorb ha hd] at h
      exact (padseq_frame h).records_none (by simp) hc
    · rw [if_pos hd]
      exact records_of_raise (execLast_mismatch ha hd) (by decide) h
  · rw [if_pos ha]
    exact records_of_raise (execLast_outOfPhase (Status.idle_or_done hf ha)) (by decide) h

end

end Sys2Proof.Machine

namespace Sys2Proof

/-! ## The obligation -/

open Machine

/-- Settles O15: the word is illegal or one of the three commands, and the cause of each is read off its status and counts;
at most one cause is recorded, so each clause is an equation of causes. -/
theorem eachCommandRecordsItsCause : Obligations.EachCommandRecordsItsCause := by
  intro s t w rest hb hh hf hc ht
  by_cases hw : LegalWord w
  · have hlegal : ¬ IllegalWord w := fun hi => illegalWord_iff.1 hi hw
    obtain ho | ⟨ho, hr⟩ | ⟨ho, hp⟩ := hw
    · rw [step_boundary_decoded hb hh (decode_cmd_start ho)] at ht
      obtain ⟨hcause, hst⟩ := execStart_records (s := s.accept w rest) hf hc ht
      rw [opcodeOf] at ho
      rw [hst, hcause, State.accept_st, ho]
      by_cases ha : s.st = .absorb <;> simp [hlegal, ha]
    · rw [step_boundary_decoded hb hh (decode_cmd_data ho hr)] at ht
      obtain ⟨hcause, hst⟩ := execData_records (s := s.accept w rest) hf hc ht
      rw [opcodeOf] at ho
      rw [hst, hcause, State.accept_st, State.accept_cnt, ← maxMessageBytes, ho]
      by_cases ha : s.st = .absorb
      · by_cases hm : s.cnt.toNat = maxMessageBytes <;> simp [hlegal, ha, hm]
      · simp [hlegal, ha]
    · rw [step_boundary_decoded hb hh (decode_cmd_last ho hp)] at ht
      obtain ⟨hcause, hst⟩ := execLast_records (s := s.accept w rest) hf hc ht
      rw [opcodeOf] at ho
      rw [hst, hcause, State.accept_st, State.accept_cnt, State.accept_dlen, ho]
      by_cases ha : s.st = .absorb
      · by_cases hd : 8 * s.cnt.toNat = s.dlen.toNat <;> simp [hlegal, ha, hd]
      · simp [hlegal, ha]
  · have hi : IllegalWord w := illegalWord_iff.2 hw
    rw [step_boundary_illegal hb hh hi] at ht
    obtain ⟨hcause, hst⟩ := records_of_raise (illegalCommand_raises (s := s.accept w rest) hf) (by decide) ht
    rw [hst, hcause]
    simp [hi]

end Sys2Proof

/-! FAULT ignores every command word (60_exceptions.md R198, R199), so only RST leaves it (70_reset_and_hazards.md R220). -/

namespace Sys2Proof.Machine

theorem execData_fault {s : State} (b : Byte) (h : s.st = .fault) : execData b s = .next s := inPhase_fault h

theorem execLast_fault {s : State} (h : s.st = .fault) : execLast s = .next s := inPhase_fault h

theorem step_boundary_nothing {s : State} (hb : s.AtBoundary) (hh : s.host = []) : step s = .next s := by
  rw [step, due_boundary hb, hh]

/-- In FAULT a command word, legal or not, is accepted and changes no register. -/
theorem step_boundary_command_fault {s : State} {w : BitVec 72} {rest : List HostEvent} (hb : s.AtBoundary)
    (hh : s.host = .command w :: rest) (hf : s.st = .fault) : step s = .next (s.accept w rest) := by
  by_cases hw : LegalWord w
  · obtain ho | ⟨ho, hr⟩ | ⟨ho, hp⟩ := hw
    · exact (step_boundary_decoded hb hh (decode_cmd_start ho)).trans (execStart_fault _ hf)
    · exact (step_boundary_decoded hb hh (decode_cmd_data ho hr)).trans (execData_fault _ hf)
    · exact (step_boundary_decoded hb hh (decode_cmd_last ho hp)).trans (execLast_fault hf)
  · exact (step_boundary_illegal hb hh (illegalWord_iff.2 hw)).trans (illegalCommand_fault hf)

/-- At a boundary in FAULT only RST leaves FAULT (R198). -/
theorem step_boundary_leaves_fault {s t : State} (hb : s.AtBoundary) (hf : s.st = .fault) (h : step s = .next t)
    (ht : t.st ≠ .fault) : ∃ rest, s.host = .rst :: rest := by
  match hh : s.host with
  | [] =>
    cases (step_boundary_nothing hb hh).symm.trans h
    exact absurd hf ht
  | .command w :: rest =>
    cases (step_boundary_command_fault hb hh hf).symm.trans h
    exact absurd hf ht
  | .rst :: rest => exact ⟨rest, rfl⟩

end Sys2Proof.Machine

namespace Sys2Proof

/-! ## The obligation -/

open Machine

/-- Settles O10: RST is taken at once and gives the registers their reset values, and every other event leaves FAULT as it is. -/
theorem resetSetsControlRegisters : Obligations.ResetSetsControlRegisters := fun s hb =>
  ⟨fun rest hh => ⟨s.rst rest, step_boundary_rst hb hh, rfl, rfl, rfl, rfl, rfl, rfl, rfl, rfl, rfl, rfl, rfl⟩,
    fun _ => step_boundary_leaves_fault hb⟩

end Sys2Proof

/-! Decoder and encoder agree in both directions, over the three formats (30_encoding.md R73, R77). -/

namespace Sys2Proof

/-! ## The codes of the padder's micro-operations -/

theorem decode_pushmCode : decode (.pseq (padderCode 0#2 0#3)) = .ok .pushm := by
  simp [decode, decodePadder]

theorem decode_push80Code : decode (.pseq (padderCode 1#2 0#3)) = .ok .push80 := by
  simp [decode, decodePadder]

theorem decode_push00Code : decode (.pseq (padderCode 2#2 0#3)) = .ok .push00 := by
  simp [decode, decodePadder]

theorem decode_pushlCode (li : BitVec 3) : decode (.pseq (padderCode 3#2 li)) = .ok (.pushl li) := by
  simp [decode, decodePadder]

/-! ## From a decoded word back to its encoding -/

/-- `c` is the word of the well-formed instruction `i`. -/
def EncodedBy (c : Code) (i : Instr) : Prop := i.wellFormed = true ∧ encode i = c

theorem encodedBy_of_decodeCommand {w : BitVec 72} {i : Instr} (h : decodeCommand w = .ok i) : EncodedBy (.cmd w) i := by
  have hw := commandWord_fields w
  unfold decodeCommand at h
  split_ifs at h with h1 h2 hr h3 hp
  · cases h
    rw [h1] at hw
    exact ⟨rfl, congrArg Code.cmd hw⟩
  · cases h
    rw [h2, ← payload_fields, hr] at hw
    exact ⟨rfl, congrArg Code.cmd hw⟩
  · cases h
    rw [h3, hp] at hw
    exact ⟨rfl, congrArg Code.cmd hw⟩

theorem encodedBy_of_decodePadder {c : BitVec 5} {i : Instr} (h : decodePadder c = .ok i) : EncodedBy (.pseq c) i := by
  have hc := padderCode_fields c
  unfold decodePadder at h
  split_ifs at h with h3 hl h0 h1
  · cases h
    rw [h3] at hc
    exact ⟨rfl, congrArg Code.pseq hc⟩
  · cases h
    rw [h0, not_not.1 hl] at hc
    exact ⟨rfl, congrArg Code.pseq hc⟩
  · cases h
    rw [h1, not_not.1 hl] at hc
    exact ⟨rfl, congrArg Code.pseq hc⟩
  · cases h
    have h2 : ppField c = 2#2 := by bv_omega
    rw [h2, not_not.1 hl] at hc
    exact ⟨rfl, congrArg Code.pseq hc⟩

theorem encodedBy_of_decodeEngine {c : BitVec 9} {i : Instr} (h : decodeEngine c = .ok i) : EncodedBy (.useq c) i := by
  have hc := engineCode_fields c
  unfold decodeEngine at h
  split_ifs at h with h0 h1 ht h2 ht h3 ht h4 h5 ht
  · cases h
    rw [h1] at hc
    exact ⟨decide_eq_true ht, congrArg Code.useq hc⟩
  · cases h
    rw [h2] at hc
    exact ⟨decide_eq_true ht, congrArg Code.useq hc⟩
  · cases h
    rw [h3, ht] at hc
    exact ⟨rfl, congrArg Code.useq hc⟩
  · cases h
    rw [h4] at hc
    exact ⟨rfl, congrArg Code.useq hc⟩
  · cases h
    rw [h5, ht] at hc
    exact ⟨rfl, congrArg Code.useq hc⟩

theorem encodedBy_of_decode {c : Code} {i : Instr} (h : decode c = .ok i) : EncodedBy c i := by
  cases c with
  | cmd w => exact encodedBy_of_decodeCommand h
  | pseq c => exact encodedBy_of_decodePadder h
  | useq c => exact encodedBy_of_decodeEngine h

/-! ## Which instructions a word of each format can be -/

/-- A command of the host, a word of CMD72 (R73). -/
def Instr.IsCommand (i : Instr) : Prop := (∃ len, i = .start len) ∨ (∃ b, i = .data b) ∨ i = .last

/-- A micro-operation of the padder, a code of PSEQ5 (R77). -/
def Instr.IsPush (i : Instr) : Prop := i = .pushm ∨ i = .push80 ∨ i = .push00 ∨ ∃ li, i = .pushl li

/-- A micro-operation of the block engine, a code of USEQ9 (R77). -/
def Instr.IsEngine (i : Instr) : Prop :=
  (∃ t, i = .ldw t) ∨ (∃ t, i = .exp t) ∨ i = .ldv ∨ (∃ t, i = .rnd t) ∨ i = .addh

theorem Instr.class_of (i : Instr) : i.IsCommand ∨ i.IsPush ∨ i.IsEngine := by
  cases i with
  | start len => exact .inl (.inl ⟨len, rfl⟩)
  | data b => exact .inl (.inr (.inl ⟨b, rfl⟩))
  | last => exact .inl (.inr (.inr rfl))
  | pushm => exact .inr (.inl (.inl rfl))
  | push80 => exact .inr (.inl (.inr (.inl rfl)))
  | push00 => exact .inr (.inl (.inr (.inr (.inl rfl))))
  | pushl li => exact .inr (.inl (.inr (.inr (.inr ⟨li, rfl⟩))))
  | ldw t => exact .inr (.inr (.inl ⟨t, rfl⟩))
  | exp t => exact .inr (.inr (.inr (.inl ⟨t, rfl⟩)))
  | ldv => exact .inr (.inr (.inr (.inr (.inl rfl))))
  | rnd t => exact .inr (.inr (.inr (.inr (.inr (.inl ⟨t, rfl⟩)))))
  | addh => exact .inr (.inr (.inr (.inr (.inr (.inr rfl)))))

theorem isCommand_of_decode {w : BitVec 72} {i : Instr} (h : decode (.cmd w) = .ok i) : i.IsCommand := by
  obtain ⟨-, he⟩ := encodedBy_of_decode h
  obtain hi | (rfl | rfl | rfl | ⟨li, rfl⟩) | (⟨t, rfl⟩ | ⟨t, rfl⟩ | rfl | ⟨t, rfl⟩ | rfl) := i.class_of
  · exact hi
  all_goals cases he

/-! ## The obligations -/

open Machine

/-- Settles O1: each row of the tables has its own decoding lemma; the index range of LDW and EXP is well-formedness. -/
theorem decodeOfEncodeIsTheInstruction : Obligations.DecodeOfEncodeIsTheInstruction := by
  intro i hi
  cases i with
  | start len => exact decode_startWord len
  | data b => exact decode_dataWord b
  | last => exact decode_lastWord
  | pushm => exact decode_pushmCode
  | push80 => exact decode_push80Code
  | push00 => exact decode_push00Code
  | pushl li => exact decode_pushlCode li
  | ldw t => exact decode_ldwCode (of_decide_eq_true hi)
  | exp t => exact decode_expCode (of_decide_eq_true hi)
  | ldv => exact decode_ldvCode
  | rnd t => exact decode_rndCode t
  | addh => exact decode_addhCode

/-- Settles O2: in each branch where the decoder answers, the fields it tested are those the encoder writes, and a word is
its fields. -/
theorem decodedWordIsTheEncoding : Obligations.DecodedWordIsTheEncoding := fun _ _ => encodedBy_of_decode

/-- Settles O5: the three kinds of word in MSG are words of the encoder. -/
theorem messageWordsDecodeInOrder : Obligations.MessageWordsDecodeInOrder := by
  intro m
  simp [messageEvents, decode_startWord, decode_dataWord, decode_lastWord, Except.toOption, Function.comp_def]

/-- Settles O3: fourteen closed evaluations of the decoder. -/
theorem writtenOutWordsDecode : Obligations.WrittenOutWordsDecode := by
  unfold Obligations.WrittenOutWordsDecode
  decide

end Sys2Proof

/-! PUSH and the commands that end in one (40_padder.md R106, R110 to R114): what each stores, below offset 63 and at it, and
the steps of a whole message (R115; 43_digest_output.md R186). -/

namespace Sys2Proof.Machine

/-! ## The padder's instructions are PUSHes -/

theorem exec_pushm (s : State) : exec .pushm s = push (byteOf s.cmd) s := rfl

theorem exec_push80 (s : State) : exec .push80 s = push 0x80#8 s := rfl

theorem exec_push00 (s : State) : exec .push00 s = push 0x00#8 s := rfl

theorem exec_pushl (li : BitVec 3) (s : State) : exec (.pushl li) s = push (lengthByte s.dlen li.toNat) s := rfl

/-! ## What a PUSH stores -/

/-- Below offset 63 a PUSH only stores its byte and moves OFF on. -/
theorem push_stores {s : State} (x : Byte) (ho : s.off ≠ 63#6) :
    ∃ t, push x s = .next t ∧ t.buf.read s.off.toNat = some x ∧
      (∀ a, a ≠ s.off.toNat → t.buf.read a = s.buf.read a) ∧ t = { s with buf := t.buf, off := s.off + 1#6 } :=
  ⟨_, push_partial ho, Memory.read_write_same _ _ _, fun _ => Memory.read_write_other _ _, rfl⟩

/-- The byte of the PUSH completes the block. -/
theorem Memory.holds_write_last {m : Memory} {b : Block} (h : ∀ j (hj : j < 63), m.read j = some b[j]) :
    (m.write 63 b[63]).Holds b := by
  intro j hj
  by_cases hl : j = 63
  · subst hl
    exact Memory.read_write_same m 63 _
  · rw [Memory.read_write_other m _ hl, h j (by omega)]

/-- At offset 63, the other 63 bytes of the block `b` being there, a PUSH of the last one compresses `b`. -/
theorem push_compresses {s : State} {b : Block} (ho : s.off = 63#6) (hb : ∀ j (hj : j < 63), s.buf.read j = some b[j]) :
    ∃ t, push b[63] s = .next t ∧ t.buf.read 63 = some b[63] ∧ (∀ a, a ≠ 63 → t.buf.read a = s.buf.read a) ∧
      t = { s with
        h := compressBlock s.h b, v := rounds (schedule b) s.h, w := schedule b, buf := t.buf, off := 0#6, nblk := s.nblk + 1#64, ph := .fill, t := 0#6 } :=
  ⟨_, push_full ho (Memory.holds_write_last hb), Memory.read_write_same _ _ _, fun _ => Memory.read_write_other _ _, rfl⟩

end Sys2Proof.Machine

namespace Sys2Proof

/-! ## The obligations -/

open Machine

/-- Settles O24: each of the three instructions is a PUSH of its byte. -/
theorem pushStoresAndAtTheBlockEndCompresses : Obligations.PushStoresAndAtTheBlockEndCompresses := by
  intro s i x hi
  have hpush : exec i s = push x s := by
    obtain ⟨rfl, rfl⟩ | ⟨rfl, rfl⟩ | ⟨li, rfl, rfl⟩ := hi
    · exact exec_push80 s
    · exact exec_push00 s
    · exact exec_pushl li s
  rw [hpush]
  refine ⟨push_stores x, fun b ho hb hx => ?_⟩
  subst hx
  exact push_compresses ho hb

/-- Settles O25: PUSHM is a PUSH of the byte field of CMD, and DATA is the same PUSH and then the count. -/
theorem dataIsPushmThenCount : Obligations.DataIsPushmThenCount := by
  intro s b hcmd
  have hpush : exec .pushm s = push b s := by rw [exec_pushm, hcmd, byteOf_dataWord]
  rw [hpush]
  refine ⟨push_stores b, fun blk ho hb hx => ?_, fun hst hc => ?_⟩
  · subst hx
    exact push_compresses ho hb
  · rw [exec_data, execData_absorb b hst hc]
    refine ⟨fun u hu => ?_, fun e he => ?_⟩
    · rw [hu, andThen_next]
      rfl
    · rw [he, andThen_fault]

/-- Settles O13: the PUSH below the block's end, and then the count. -/
theorem dataBelowTheBlockEndStoresItsByte : Obligations.DataBelowTheBlockEndStoresItsByte := by
  intro s b hst hc ho
  obtain ⟨t, ht, hread, hother, hframe⟩ := push_stores b ho
  refine ⟨t.countByte, ?_, hread, hother, ?_⟩
  · rw [exec_data, execData_absorb b hst hc, ht, andThen_next]
  · rw [hframe]
    rfl

/-- Settles O14: the PUSH that completes the block, and then the count. -/
theorem dataAtTheBlockEndCompresses : Obligations.DataAtTheBlockEndCompresses := by
  intro s b hst hc ho hb
  obtain ⟨t, ht, hread, hother, hframe⟩ := push_compresses ho hb
  refine ⟨t.countByte, ?_, hread, hother, ?_⟩
  · rw [exec_data, execData_absorb _ hst hc, ht, andThen_next]
  · rw [hframe]
    rfl

/-- Settles O46: DATA pushes its byte onto the stream the registers stand for. -/
theorem dataExtendsTheMessage : Obligations.DataExtendsTheMessage := by
  intro s m b hs hm
  obtain ⟨t, ht, hta, -⟩ := execData_extends b hs hm
  exact ⟨t, ht, hta⟩

/-- Settles O47: PADSEQ pushes what `Pad(m)` adds to the message. -/
theorem lastFinishesTheMessage : Obligations.LastFinishesTheMessage := by
  intro s m hs hd
  obtain ⟨t, ht, htm, -⟩ := execLast_finishes hs hd
  exact ⟨t, ht, htm⟩

/-- Settles O48: the run of the message's commands delivers it, and the ports are read off the delivered state. -/
theorem messageCommandsGiveTheDigest : Obligations.MessageCommandsGiveTheDigest := by
  intro s m rest hb hst hc hm hh
  obtain ⟨t, ht, hboundary, hcause, hfinished, hhost⟩ := runsTo_delivered hb hst hc hm hh
  refine ⟨t, ht, hfinished.st, hcause, ?_, hfinished.h, ⟨digestWord t.h, State.portDigest_done hfinished.st, ?_⟩,
    hboundary, hhost⟩
  · rw [hfinished.nblk, paddedLen_eq, Nat.mul_div_cancel_left _ (by omega)]
  · rw [digest, hfinished.h, Option.map_some, portBytes_digestWord]

end Sys2Proof

/-! BLK, one micro-operation a step (42_compression.md R163, R164): stepped from LOADW it ends where BLK ends. -/

namespace Sys2Proof.Machine

/-- A phase of BLK: its codes select `instr`, which `op` executes, and until `last` the engine counts T up inside the phase. -/
structure BlockPhase.Loops (p : BlockPhase) (instr : BitVec 6 → Instr) (op : BitVec 6 → State → Result) (first last : Nat) :
    Prop where
  active : p ≠ .fill
  decodes : ∀ t : BitVec 6, first ≤ t.toNat → t.toNat ≤ last → decode (.useq (engineCode p.code t)) = .ok (instr t)
  executes : ∀ t s, exec (instr t) s = op t s
  keeps : ∀ t s u, op t s = .next u → u.ph = s.ph ∧ u.t = s.t
  counts : ∀ s : State, s.ph = p → s.t ≠ BitVec.ofNat 6 last → advanceEngine s = s.engineAt p (s.t + 1#6)

theorem loadw_loops : BlockPhase.loadw.Loops .ldw execLdw 0 15 where
  active := by decide
  decodes _ _ ht := decode_ldwCode (by omega)
  executes := exec_ldw
  keeps t s u h := by
    obtain ⟨-, x, rfl⟩ := execLdw_eq_next h
    exact ⟨rfl, rfl⟩
  counts _ := advanceEngine_loadw_next

theorem expand_loops : BlockPhase.expand.Loops .exp execExp 16 63 where
  active := by decide
  decodes _ ht _ := decode_expCode ht
  executes := exec_exp
  keeps t s u h := by
    obtain ⟨-, rfl⟩ := execExp_eq_next h
    exact ⟨rfl, rfl⟩
  counts _ := advanceEngine_expand_next

theorem rounds_loops : BlockPhase.rounds.Loops .rnd execRnd 0 63 where
  active := by decide
  decodes t _ _ := decode_rndCode t
  executes := exec_rnd
  keeps t s u h := by
    rw [execRnd_next] at h
    cases h
    exact ⟨rfl, rfl⟩
  counts _ := advanceEngine_rounds_next

section
variable {p : BlockPhase} {instr : BitVec 6 → Instr} {op : BitVec 6 → State → Result} {first last : Nat}

theorem BlockPhase.Loops.step_turn (hp : p.Loops instr op first last) (hlast : last < 64) {k : Nat} (hfirst : first ≤ k)
    (hk : k ≤ last) {s u : State} (h : op (BitVec.ofNat 6 k) (s.engineAt p (BitVec.ofNat 6 k)) = .next u) :
    step (s.engineAt p (BitVec.ofNat 6 k)) = .next (advanceEngine u) ∧ u.ph = p ∧ u.t = BitVec.ofNat 6 k := by
  have ht : (BitVec.ofNat 6 k).toNat = k := toNat_ofNat_lt (by omega)
  have hd := hp.decodes (BitVec.ofNat 6 k) (by omega) (by omega)
  exact ⟨step_engine hp.active hd ((hp.executes _ _).trans h), hp.keeps _ _ _ h⟩

/-- A loop of BLK from index `k` on, stepped: one step a turn, the last of them leaving the phase. -/
theorem BlockPhase.Loops.run_loop (hp : p.Loops instr op first last) (hlast : last < 64) {n k : Nat} (hfirst : first ≤ k)
    (hn : k + n = last) {s u : State} (h : overT p op (List.range' k (n + 1)) s = .next u) :
    run (n + 1) (s.engineAt p (BitVec.ofNat 6 k)) = .next (advanceEngine u) ∧ u.ph = p ∧ u.t = BitVec.ofNat 6 last := by
  induction n generalizing k s with
  | zero =>
    obtain ⟨x, hx, hu⟩ := andThen_eq_next.1 h
    cases hu
    obtain ⟨hstep, hph, ht⟩ := hp.step_turn hlast hfirst (by omega) hx
    subst hn
    exact ⟨by rw [run_succ, hstep, andThen_next, run_zero], hph, ht⟩
  | succ n ih =>
    obtain ⟨x, hx, hu⟩ := andThen_eq_next.1 h
    obtain ⟨hstep, hph, ht⟩ := hp.step_turn hlast hfirst (by omega) hx
    have hbefore : x.t ≠ BitVec.ofNat 6 last := by
      rw [ht]
      bv_omega
    have hadvance : advanceEngine x = x.engineAt p (BitVec.ofNat 6 (k + 1)) := by
      rw [hp.counts x hph hbefore, ht, BitVec.ofNat_add]
    obtain ⟨hrun, hend⟩ := ih (by omega) (by omega) hu
    exact ⟨by rw [run_succ, hstep, andThen_next, hadvance, hrun], hend⟩

end

theorem step_loadv {s : State} (h : s.ph = .loadv) (ht : s.t = 0#6) :
    step s = .next ((s.setV s.h).engineAt .rounds 0#6) := by
  have hd : decode (.useq s.engineWord) = .ok .ldv := by rw [State.engineWord, h, ht]; exact decode_ldvCode
  rw [step_engine (by simp [h]) hd (exec_ldv s), advanceEngine_loadv (s := s.setV s.h) h]

theorem step_feed {s : State} (h : s.ph = .feed) (ht : s.t = 0#6) :
    step s = .next ((s.setH (addWords s.h s.v)).countBlock.engineAt .fill 0#6) := by
  have hd : decode (.useq s.engineWord) = .ok .addh := by rw [State.engineWord, h, ht]; exact decode_addhCode
  rw [step_engine (by simp [h]) hd (exec_addh s), advanceEngine_feed (s := s.setH (addWords s.h s.v)) h]

/-- BLK stepped, its 16 + 48 + 1 + 64 + 1 micro-operations one at a time, ends where BLK ends. -/
theorem run_blk {s u : State} (h : blk s = .next u) : run 130 (s.engineAt .loadw 0#6) = .next u := by
  unfold blk at h
  obtain ⟨s1, h1, h⟩ := andThen_eq_next.1 h
  obtain ⟨s2, h2, h⟩ := andThen_eq_next.1 h
  rw [execLdv_next, andThen_next] at h
  obtain ⟨s3, h3, h⟩ := andThen_eq_next.1 h
  rw [execAddh_next, andThen_next] at h
  cases h
  obtain ⟨r1, p1, t1⟩ := loadw_loops.run_loop (by omega) (n := 15) (k := 0) (by omega) rfl h1
  obtain ⟨r2, p2, t2⟩ := expand_loops.run_loop (by omega) (n := 47) (k := 16) (by omega) rfl h2
  obtain ⟨r3, p3, t3⟩ := rounds_loops.run_loop (by omega) (n := 63) (k := 0) (by omega) rfl h3
  rw [advanceEngine_loadw_last p1 t1] at r1
  rw [advanceEngine_expand_last p2 t2] at r2
  rw [advanceEngine_rounds_last p3 t3] at r3
  rw [show 130 = 15 + 1 + (47 + 1 + (1 + (63 + 1 + 1))) from rfl, run_add, r1, andThen_next, run_add, r2, andThen_next,
    run_add, run_succ, step_loadv rfl rfl, andThen_next, run_zero, andThen_next, run_add, r3, andThen_next, run_succ,
    step_feed rfl rfl, andThen_next, run_zero]

end Sys2Proof.Machine

namespace Sys2Proof

/-! ## The obligation -/

open Machine

/-- Settles O36: BLK stepped ends where BLK ends, which on a full buffer is the compressed block. -/
theorem blockSequenceTakes130Steps : Obligations.BlockSequenceTakes130Steps := fun _ _ hb => run_blk (blk_next hb)

end Sys2Proof

/-! LAST with the right length (40_padder.md R107 to R109): what it leaves, and PADSEQ stepped one PUSH at a time. -/

namespace Sys2Proof.Machine

/-! ## LAST on the incomplete block in B -/

/-- The `OFF` bytes of an incomplete block are a stream that started at offset 0. -/
theorem streamed_of_tail {s : State} {tail : List Byte} (hl : tail.length < 64) (ho : s.off.toNat = tail.length)
    (ht : ∀ j (hj : j < tail.length), s.buf.read j = some tail[j]) : s.Streamed s.h s.nblk tail := by
  have hmod : tail.length % 64 = tail.length := Nat.mod_eq_of_lt hl
  have hdiv : tail.length / 64 = 0 := Nat.div_eq_of_lt hl
  refine ⟨by rw [ho, hmod], fun j hj => ?_, by simp [hdiv], by rw [hdiv]; rfl⟩
  rw [hmod] at hj
  rw [hdiv, Nat.mul_zero, Nat.zero_add, List.getElem?_eq_getElem hj, ht j hj]

theorem held_of_tail {m : Memory} {tail : List Byte} (hl : tail.length < 64)
    (ht : ∀ j (hj : j < tail.length), m.read j = some tail[j]) : m.Held tail := by
  intro j _ hj
  have hdiv : (tail.length - 1 - j) / 64 = 0 := Nat.div_eq_of_lt (by omega)
  rw [hdiv, Nat.mul_zero, Nat.add_zero, List.getElem?_eq_getElem hj, ht j hj]

/-- After a stream of one or more whole blocks, B holds the last of them. -/
theorem Memory.Held.last_block {m : Memory} {p : List Byte} {n : Nat} (hm : m.Held p) (hp : p.length = 64 * n) (hn : 0 < n)
    {j : Nat} (hj : j < 64) : m.read j = p[64 * (n - 1) + j]? := by
  have hindex : j + 64 * ((p.length - 1 - j) / 64) = 64 * (n - 1) + j := by omega
  rw [hm j hj (by omega), hindex]

/-- The last block with its marker, zeros and length field is one block or two (R109). -/
theorem padded_tail_length {tail : List Byte} (l : DWord) (hl : tail.length < 64) :
    (tail ++ [0x80#8] ++ List.replicate ((119 - tail.length) % 64) 0x00#8 ++ be64bytes l).length =
      64 * (if tail.length ≤ 55 then 1 else 2) := by
  simp only [List.length_append, List.length_singleton, List.length_replicate, be64bytes_length]
  split <;> omega

/-! ## PADSEQ stepped -/

theorem padderActive_of_pp {s : State} (h : s.pp ≠ .msg) : s.padderActive = true := by
  simp [State.padderActive, h]

theorem step_mark {s u : State} (hph : s.ph = .fill) (hpp : s.pp = .mark) (hli : s.li = 0#3)
    (hu : push 0x80#8 s = .next u) : step s = .next (enterZeros u) := by
  have hd : decode (.pseq s.padderWord) = .ok .push80 := by rw [State.padderWord, hpp, hli]; exact decode_push80Code
  rw [step_padder hph (padderActive_of_pp (by simp [hpp])) hd hu, advancePadder_mark ((push_frame hu).pp.trans hpp)]

theorem step_zeros {s u : State} (hph : s.ph = .fill) (hpp : s.pp = .zeros) (hli : s.li = 0#3)
    (hu : push 0x00#8 s = .next u) : step s = .next (enterZeros u) := by
  have hd : decode (.pseq s.padderWord) = .ok .push00 := by rw [State.padderWord, hpp, hli]; exact decode_push00Code
  rw [step_padder hph (padderActive_of_pp (by simp [hpp])) hd hu, advancePadder_zeros ((push_frame hu).pp.trans hpp)]

theorem step_length {s u : State} (hph : s.ph = .fill) (hpp : s.pp = .length)
    (hu : push (lengthByte s.dlen s.li.toNat) s = .next u) : step s = .next (advancePadder u) := by
  have hd : decode (.pseq s.padderWord) = .ok (.pushl s.li) := by rw [State.padderWord, hpp]; exact decode_pushlCode s.li
  rw [step_padder hph (padderActive_of_pp (by simp [hpp])) hd hu]

theorem zerosLoop_end (fuel : Nat) {s : State} (ho : s.off = 56#6) : zerosLoop fuel s = .next s := by
  cases fuel with
  | zero => rfl
  | succ fuel => exact if_pos ho

theorem zerosLoop_turn (fuel : Nat) {s : State} (ho : s.off ≠ 56#6) :
    zerosLoop (fuel + 1) s = andThen (push 0x00#8 s) (zerosLoop fuel) := if_neg ho

theorem State.padderAt_self {s : State} {pp : PadPhase} {li : BitVec 3} (hpp : s.pp = pp) (hli : s.li = li) :
    s.padderAt pp li = s := by
  subst hpp hli
  rfl

/-- The ZEROS loop stepped: one step a PUSH00, from the end of one PUSH to the start of the length field. -/
theorem run_zerosLoop {fuel k : Nat} {s u : State} (hengine : s.ph = .fill ∧ s.t = 0#6) (hk : (s.off.toNat + k) % 64 = 56)
    (hlt : k < 64) (hfuel : k ≤ fuel) (h : zerosLoop fuel (s.padderAt .zeros 0#3) = .next u) :
    run k (enterZeros s) = .next (u.padderAt .length 0#3) := by
  induction k generalizing fuel s with
  | zero =>
    have ho : s.off = 56#6 := by bv_omega
    cases (zerosLoop_end fuel (s := s.padderAt .zeros 0#3) ho).symm.trans h
    rw [run_zero, enterZeros_last ho]
    rfl
  | succ k ih =>
    have ho : s.off ≠ 56#6 := by bv_omega
    obtain ⟨fuel, rfl⟩ : ∃ f, fuel = f + 1 := ⟨fuel - 1, by omega⟩
    rw [zerosLoop_turn fuel (s := s.padderAt .zeros 0#3) ho] at h
    obtain ⟨x, hx, hu⟩ := andThen_eq_next.1 h
    have hframe : (s.padderAt .zeros 0#3).PushFrame x := push_frame hx
    have hoff : x.off = s.off + 1#6 := (push_eq_next hx).2.1
    rw [← State.padderAt_self hframe.pp hframe.li] at hu
    have hrun := ih (hframe.engine hengine) (by bv_omega) (by omega) (by omega) hu
    rw [enterZeros_next ho, run_succ, step_zeros (s := s.padderAt .zeros 0#3) hengine.1 rfl rfl hx, andThen_next, hrun]

/-- The length field stepped: one step a PUSHL, the eighth of which ends LAST. -/
theorem run_lengthLoop {n i : Nat} {s u : State} (hengine : s.ph = .fill ∧ s.t = 0#6) (hpp : s.pp = .length)
    (hli : s.li = BitVec.ofNat 3 i) (hi : i + n = 7) (h : lengthLoop (n + 1) s = .next u) :
    run (n + 1) s = .next (u.padderAt .msg 0#3).finish := by
  induction n generalizing i s with
  | zero =>
    obtain ⟨x, hx, hu⟩ := andThen_eq_next.1 h
    cases hu
    have hframe : s.PushFrame x := push_frame hx
    have hlast : x.li = 7#3 := by rw [hframe.li, hli, ← hi]; rfl
    rw [run_succ, step_length hengine.1 hpp hx, advancePadder_length_last (hframe.pp.trans hpp) hlast, andThen_next, run_zero]
    rfl
  | succ n ih =>
    obtain ⟨x, hx, hu⟩ := andThen_eq_next.1 h
    have hframe : s.PushFrame x := push_frame hx
    have hbefore : x.li ≠ 7#3 := by
      rw [hframe.li, hli]
      bv_omega
    have hnext : x.li + 1#3 = BitVec.ofNat 3 (i + 1) := by rw [hframe.li, hli, BitVec.ofNat_add]
    rw [run_succ, step_length hengine.1 hpp hx, advancePadder_length_next (hframe.pp.trans hpp) hbefore, andThen_next]
    rw [hframe.pp, hpp] at hu
    exact ih (hframe.engine hengine) rfl hnext (by omega) hu

/-- PADSEQ stepped, its `9 + k` PUSHes one at a time, ends where PADSEQ ends. -/
theorem run_padseq {s t : State} {k : Nat} (hs : s.quiescent) (hk : (s.off.toNat + 1 + k) % 64 = 56) (hlt : k < 64)
    (h : padseq s = .next t) : run (9 + k) (s.padderAt .mark 0#3) = .next t := by
  obtain ⟨-, hli, hengine⟩ := hs
  rw [padseq, hli] at h
  obtain ⟨u, hu, h⟩ := andThen_eq_next.1 h
  have hmark : (s.padderAt .mark 0#3).PushFrame u := push_frame hu
  have hoff : u.off = s.off + 1#6 := (push_eq_next hu).2.1
  rw [hmark.li, State.padderAt_li] at h
  obtain ⟨x, hx, h⟩ := andThen_eq_next.1 h
  have hzeros : (u.padderAt .zeros 0#3).PushFrame x := zerosLoop_frame hx
  obtain ⟨y, hy, h⟩ := andThen_eq_next.1 h
  have hy0 : y.li = 0#3 := (lengthLoop_frame hy).li
  rw [hy0] at h
  have hidle := hmark.engine hengine
  have hlength := run_lengthLoop (n := 7) (i := 0) (s := x.padderAt .length 0#3) (hzeros.engine hidle) rfl rfl rfl hy
  rw [show 9 + k = k + (7 + 1) + 1 by omega, run_succ, step_mark (s := s.padderAt .mark 0#3) hengine.1 rfl rfl hu,
    andThen_next, run_add, run_zerosLoop hidle (by bv_omega) hlt (by omega) hx, andThen_next, hlength, h]

end Sys2Proof.Machine

namespace Sys2Proof

/-! ## The obligations -/

open Machine

/-- Settles O20: PADSEQ pushes the padding onto the stream that the incomplete block is, and the registers are read off the
stream at its end, a block boundary. -/
theorem lastPadsAndFinishes : Obligations.LastPadsAndFinishes := by
  intro s tail hst hq hd hl ho ht blocks padded
  have hpadded : padded.length = 64 * blocks := padded_tail_length s.dlen hl
  have hblocks : 0 < blocks := by
    simp only [blocks]
    split <;> decide
  have hdiv : padded.length / 64 = blocks := by omega
  obtain ⟨t, hpadseq, hstream, hframe, hheld, hworked⟩ := padseq_streamed (streamed_of_tail hl ho ht)
  rw [Nat.mod_eq_of_lt hl] at hstream hheld hworked
  change t.Streamed s.h s.nblk padded at hstream
  change s.buf.Held tail → t.buf.Held padded at hheld
  change t.Worked s.h padded at hworked
  obtain ⟨hoff, -, hnblk, hh⟩ := hstream
  obtain ⟨hw, hv⟩ := hworked (by omega)
  rw [hdiv] at hnblk hh hw hv
  refine ⟨t, ?_, hframe.st, ?_, ?_, hnblk, hh, hw, hv, ?_, hframe.outside, hframe.dlen, hframe.cnt, hframe.cause,
    hframe.cmd, hframe.busy, hframe.host⟩
  · rw [exec_last, execLast_absorb hst hd, hpadseq]
  · refine BitVec.eq_of_toNat_eq (hoff.trans ?_)
    rw [hpadded, Nat.mul_mod_right]
    rfl
  · obtain ⟨-, -, hengine⟩ := hq
    exact ⟨hframe.pp, hframe.li, hframe.engine hengine⟩
  · exact fun j hj => (hheld (held_of_tail hl ht)).last_block hpadded hblocks hj

/-- Settles O37: from MARK each PUSH of PADSEQ is one step, and what PADSEQ does between two of them is the padder's
advance. -/
theorem lastAgreesWithItsPushes : Obligations.LastAgreesWithItsPushes := by
  intro s tail hst hq hd hl ho ht
  obtain ⟨t, hpadseq, -⟩ := padseq_streamed (streamed_of_tail hl ho ht)
  refine ⟨t, ?_, ?_⟩
  · rw [exec_last, execLast_absorb hst hd, hpadseq]
  · have ⟨_, hli, _⟩ := hq
    have hmark : ({ s with pp := .mark } : State) = s.padderAt .mark 0#3 := by rw [← hli]; rfl
    rw [hmark]
    exact run_padseq hq (by omega) (by omega) hpadseq

end Sys2Proof

/-! A byte of B that nothing has written stops every instruction that would read it (10_state.md R44), so where BLK completes
all 64 are written, and V and W as they were before reach nothing. -/

namespace Sys2Proof.Machine

/-! ## Reading an unwritten byte -/

theorem Memory.readMany_none {m : Memory} {n a j : Nat} (ha : a ≤ j) (hj : j < a + n) (h : m.read j = none) :
    m.readMany a n = none := by
  induction n generalizing a with
  | zero => omega
  | succ n ih =>
    by_cases he : a = j
    · simp [Memory.readMany, he, h]
    · simp [Memory.readMany, ih (a := a + 1) (by omega) (by omega)]

theorem execLdw_unwritten {t : BitVec 6} {s : State} {j : Nat} (ht : t.toNat < 16) (hj : j < 4)
    (h : s.buf.read (4 * t.toNat + j) = none) : execLdw t s = .fault .bufferByteUnwritten := by
  have hm : memRead s.buf (4 * t.toNat) 4 = .error .bufferByteUnwritten := by
    rw [memRead, if_pos (by omega), Memory.readMany_none (by omega) (by omega) h]
  rw [execLdw, if_pos ht, hm]

/-- LDW in its range answers a next state or finds an unwritten byte. -/
theorem execLdw_next_or_unwritten {t : BitVec 6} {s : State} (ht : t.toNat < 16) :
    (∃ x, execLdw t s = .next (s.writeW t x)) ∨ execLdw t s = .fault .bufferByteUnwritten := by
  rw [execLdw, if_pos ht, memRead, if_pos (by omega)]
  cases s.buf.readMany (4 * t.toNat) 4 with
  | none => exact .inr rfl
  | some bytes => exact .inl ⟨_, rfl⟩

/-- The loop over LDW reads every byte from `4k` on, so it stops on an unwritten one. -/
theorem overT_load_unwritten {n k j : Nat} {s : State} (hn : k + n ≤ 16) (hk : 4 * k ≤ j) (hj : j < 4 * (k + n))
    (h : s.buf.read j = none) : overT .loadw execLdw (List.range' k n) s = .fault .bufferByteUnwritten := by
  induction n generalizing k s with
  | zero => omega
  | succ n ih =>
    have ht : (BitVec.ofNat 6 k).toNat = k := toNat_ofNat_lt (by omega)
    rw [List.range'_succ, overT]
    by_cases hlt : j < 4 * k + 4
    · have hread : (s.engineAt .loadw (BitVec.ofNat 6 k)).buf.read (4 * (BitVec.ofNat 6 k).toNat + (j - 4 * k)) = none := by
        rw [ht, Nat.add_sub_cancel' hk]
        exact h
      rw [execLdw_unwritten (by omega) (by omega) hread, andThen_fault]
    · obtain ⟨x, hx⟩ | hx := execLdw_next_or_unwritten (s := s.engineAt .loadw (BitVec.ofNat 6 k)) (t := BitVec.ofNat 6 k)
        (by omega)
      · rw [hx, andThen_next]
        exact ih (by omega) (by omega) (by omega) h
      · rw [hx, andThen_fault]

theorem blk_unwritten {s : State} {j : Nat} (hj : j < 64) (h : s.buf.read j = none) :
    blk s = .fault .bufferByteUnwritten := by
  rw [blk, overT_load_unwritten (by omega) (by omega) (by omega) h, andThen_fault]

theorem push_at_end {s : State} (x : Byte) (ho : s.off = 63#6) :
    push x s = blk ((s.setBuf (s.buf.write 63 x)).setOff 0#6) := by
  rw [push, memWrite_byte]
  simp only [ho, if_true]
  rfl

theorem push_unwritten {s : State} {j : Nat} (x : Byte) (ho : s.off = 63#6) (hj : j < 63) (h : s.buf.read j = none) :
    push x s = .fault .bufferByteUnwritten := by
  have hread : (s.buf.write 63 x).read j = none := (Memory.read_write_other _ _ (by omega)).trans h
  rw [push_at_end x ho]
  exact blk_unwritten (by omega) hread

/-! ## PADSEQ over an unwritten byte of the incomplete block -/

/-- Byte `j` of the incomplete block, `o` bytes long, was never written. -/
structure State.Gap (s : State) (j o : Nat) : Prop where
  off : s.off.toNat = o
  inside : j < o
  unwritten : s.buf.read j = none

theorem State.Gap.push_last {s : State} {j : Nat} (hs : s.Gap j 63) (x : Byte) : push x s = .fault .bufferByteUnwritten :=
  push_unwritten x (BitVec.eq_of_toNat_eq hs.off) hs.inside hs.unwritten

theorem State.Gap.push_next {s : State} {j o : Nat} (hs : s.Gap j o) (ho : o < 63) (x : Byte) :
    ∃ u, push x s = .next u ∧ u.Gap j (o + 1) := by
  obtain ⟨hoff, hj, hread⟩ := hs
  refine ⟨_, push_partial (by bv_omega), ?_, by omega, ?_⟩
  · rw [State.setOff_off]
    bv_omega
  · exact (Memory.read_write_other _ _ (by omega)).trans hread

theorem State.Gap.padderAt {s : State} {j o : Nat} (hs : s.Gap j o) (pp : PadPhase) (li : BitVec 3) :
    (s.padderAt pp li).Gap j o := ⟨hs.off, hs.inside, hs.unwritten⟩

/-- The ZEROS loop either runs through the block's end and stops there, or leaves the gap in front of the length field. -/
theorem State.Gap.zerosLoop_stops {fuel j o : Nat} {s : State} (hs : s.Gap j o) (hfuel : 64 ≤ fuel + o) :
    zerosLoop fuel s = .fault .bufferByteUnwritten ∨ ∃ u, zerosLoop fuel s = .next u ∧ u.Gap j 56 := by
  have hoff := hs.off
  induction fuel generalizing s o with
  | zero => omega
  | succ fuel ih =>
    by_cases h56 : s.off = 56#6
    · obtain rfl : o = 56 := by rw [← hoff, h56]; rfl
      exact .inr ⟨s, zerosLoop_end _ h56, hs⟩
    · rw [zerosLoop_turn fuel h56]
      by_cases h63 : o = 63
      · subst h63
        exact .inl (by rw [hs.push_last, andThen_fault])
      · obtain ⟨u, hu, hgap⟩ := hs.push_next (by omega) 0x00#8
        rw [hu, andThen_next]
        exact ih hgap (by omega) hgap.off

theorem lengthLoop_turn (n : Nat) (s : State) : lengthLoop (n + 1) s =
    andThen (push (lengthByte s.dlen s.li.toNat) s) fun u => lengthLoop n (u.padderAt u.pp (u.li + 1#3)) := rfl

/-- The length field ends at the block's end and stops there. -/
theorem State.Gap.lengthLoop_stops {n j o : Nat} {s : State} (hs : s.Gap j o) (hn : o + n = 63) :
    lengthLoop (n + 1) s = .fault .bufferByteUnwritten := by
  rw [lengthLoop_turn]
  induction n generalizing s o with
  | zero =>
    obtain rfl : o = 63 := hn
    rw [hs.push_last, andThen_fault]
  | succ n ih =>
    obtain ⟨u, hu, hgap⟩ := hs.push_next (by omega) (lengthByte s.dlen s.li.toNat)
    rw [hu, andThen_next, lengthLoop_turn]
    exact ih (hgap.padderAt _ _) (by omega)

theorem State.Gap.padseq_stops {j o : Nat} {s : State} (hs : s.Gap j o) : padseq s = .fault .bufferByteUnwritten := by
  have hmark := hs.padderAt .mark s.li
  have hoff := hs.off
  rw [padseq, execPush80]
  by_cases h63 : o = 63
  · subst h63
    rw [hmark.push_last, andThen_fault]
  · obtain ⟨u, hu, hgap⟩ := hmark.push_next (by omega) 0x80#8
    rw [hu, andThen_next]
    obtain hz | ⟨x, hx, hx56⟩ := (hgap.padderAt .zeros u.li).zerosLoop_stops (fuel := 64) (by omega)
    · rw [hz, andThen_fault]
    · rw [hx, andThen_next, (hx56.padderAt _ _).lengthLoop_stops (n := 7) rfl, andThen_fault]

/-! ## V and W before a block reach nothing -/

/-- BLK completes from a full buffer only. -/
theorem holds_of_blk {s u : State} (h : blk s = .next u) : ∃ b, s.buf.Holds b := by
  refine ⟨Vector.ofFn fun j : Fin 64 => (s.buf.read j).getD 0#8, fun j hj => ?_⟩
  rw [Vector.getElem_ofFn]
  cases hr : s.buf.read j with
  | none => cases (blk_unwritten hj hr).symm.trans h
  | some x => rfl

/-- `s` with other working registers. -/
def State.withWork (s : State) (v : Words8) (w : Words64) : State := { s with v := v, w := w }

/-- What `f` answers depends on V and W in nothing but V and W. -/
def IgnoresWork (f : State → Result) : Prop :=
  ∀ s t v w, f s = .next t → ∃ v' w', f (s.withWork v w) = .next (t.withWork v' w')

/-- A named update that neither reads nor writes V and W. -/
theorem ignoresWork_update {g : State → State} (hg : ∀ s v w, g (s.withWork v w) = (g s).withWork v w) :
    IgnoresWork fun s => .next (g s) := by
  intro s t v w h
  cases h
  exact ⟨v, w, congrArg Host.Outcome.next (hg s v w)⟩

theorem IgnoresWork.andThen {f : State → Result} {g : State → Result} (hf : IgnoresWork f) (hg : IgnoresWork g) :
    IgnoresWork fun s => andThen (f s) g := by
  intro s t v w h
  obtain ⟨u, hu, ht⟩ := andThen_eq_next.1 h
  obtain ⟨v1, w1, h1⟩ := hf s u v w hu
  obtain ⟨v2, w2, h2⟩ := hg u t v1 w1 ht
  refine ⟨v2, w2, ?_⟩
  dsimp only
  rw [h1, andThen_next, h2]

theorem IgnoresWork.after {f : State → Result} (hf : IgnoresWork f) {g : State → State}
    (hg : ∀ s v w, g (s.withWork v w) = (g s).withWork v w) : IgnoresWork fun s => f (g s) := by
  intro s t v w h
  dsimp only
  rw [hg]
  exact hf (g s) t v w h

/-- A PUSH overwrites V and W where it runs BLK, and leaves them elsewhere. -/
theorem ignoresWork_push (x : State → Byte) (hx : ∀ s v w, x (s.withWork v w) = x s) : IgnoresWork fun s => push (x s) s := by
  intro s t v w h
  dsimp only at h ⊢
  rw [hx]
  by_cases ho : s.off = 63#6
  · obtain ⟨b, hb⟩ := holds_of_blk ((push_at_end _ ho).symm.trans h)
    cases (push_full ho hb).symm.trans h
    exact ⟨_, _, push_full (s := s.withWork v w) ho hb⟩
  · cases (push_partial ho).symm.trans h
    exact ⟨v, w, push_partial (s := s.withWork v w) ho⟩

theorem ignoresWork_zerosLoop (fuel : Nat) : IgnoresWork (zerosLoop fuel) := by
  induction fuel with
  | zero => exact ignoresWork_update fun _ _ _ => rfl
  | succ fuel ih =>
    intro s t v w h
    by_cases ho : s.off = 56#6
    · cases (zerosLoop_end _ ho).symm.trans h
      exact ⟨v, w, zerosLoop_end _ (s := s.withWork v w) ho⟩
    · rw [zerosLoop_turn fuel ho] at h
      rw [zerosLoop_turn fuel (s := s.withWork v w) ho]
      exact (ignoresWork_push (fun _ => 0x00#8) fun _ _ _ => rfl).andThen ih s t v w h

theorem ignoresWork_lengthLoop (n : Nat) : IgnoresWork (lengthLoop n) := by
  induction n with
  | zero => exact ignoresWork_update fun _ _ _ => rfl
  | succ n ih =>
    exact (ignoresWork_push (fun s => lengthByte s.dlen s.li.toNat) fun _ _ _ => rfl).andThen
      (ih.after (g := fun u => u.padderAt u.pp (u.li + 1#3)) fun _ _ _ => rfl)

theorem ignoresWork_padseq : IgnoresWork padseq := by
  have hmark := (ignoresWork_push (fun _ => 0x80#8) fun _ _ _ => rfl).after (g := fun s => s.padderAt .mark s.li)
    fun _ _ _ => rfl
  have hzeros := (ignoresWork_zerosLoop 64).after (g := fun s => s.padderAt .zeros s.li) fun _ _ _ => rfl
  have hlength := (ignoresWork_lengthLoop 8).after (g := fun s => s.padderAt .length 0#3) fun _ _ _ => rfl
  have hend := ignoresWork_update (g := fun s => (s.padderAt .msg s.li).finish) fun _ _ _ => rfl
  exact hmark.andThen (hzeros.andThen (hlength.andThen hend))

/-! ## The commands -/

theorem ignoresWork_raise (c : Cause) : IgnoresWork (raise c) := ignoresWork_update fun _ _ _ => rfl

/-- The phase check looks at ST alone. -/
theorem IgnoresWork.inPhase {f : State → Result} (hf : IgnoresWork f) (admits : Status → Bool) :
    IgnoresWork fun s => inPhase admits s f := by
  intro s t v w h
  by_cases hst : s.st = .fault
  · cases (inPhase_fault hst).symm.trans h
    exact ⟨v, w, inPhase_fault (s := s.withWork v w) hst⟩
  · cases ha : admits s.st with
    | true =>
      obtain ⟨v', w', hu⟩ := hf s t v w ((inPhase_admitted hst ha).symm.trans h)
      exact ⟨v', w', (inPhase_admitted (s := s.withWork v w) hst ha).trans hu⟩
    | false =>
      cases (inPhase_refused hst ha).symm.trans h
      exact ⟨v, w, inPhase_refused (s := s.withWork v w) hst ha⟩

/-- A test that does not look at V and W. -/
theorem IgnoresWork.ite {f g : State → Result} (hf : IgnoresWork f) (hg : IgnoresWork g) (c : State → Prop)
    [DecidablePred c] (hc : ∀ s v w, c (s.withWork v w) ↔ c s) : IgnoresWork fun s => if c s then f s else g s := by
  intro s t v w h
  dsimp only at h ⊢
  by_cases hs : c s
  · rw [if_pos hs] at h
    rw [if_pos ((hc s v w).2 hs)]
    exact hf s t v w h
  · rw [if_neg hs] at h
    rw [if_neg (mt (hc s v w).1 hs)]
    exact hg s t v w h

theorem ignoresWork_execStart (len : DWord) : IgnoresWork (execStart len) :=
  (ignoresWork_update (g := fun s => s.openMessage Config.initState len) fun _ _ _ => rfl).inPhase admitsStart

theorem ignoresWork_execData (b : Byte) : IgnoresWork (execData b) := by
  have hpush := (ignoresWork_push (fun _ => b) fun _ _ _ => rfl).andThen
    (ignoresWork_update (g := State.countByte) fun _ _ _ => rfl)
  exact ((ignoresWork_raise .lenOverflow).ite hpush (fun s => s.cnt.toNat = maxMessageBytes)
    fun _ _ _ => Iff.rfl).inPhase admitsByte

theorem ignoresWork_execLast : IgnoresWork execLast :=
  ((ignoresWork_raise .lenMismatch).ite ignoresWork_padseq (fun s => 8 * s.cnt.toNat ≠ s.dlen.toNat)
    fun _ _ _ => Iff.rfl).inPhase admitsByte

theorem ignoresWork_illegalCommand : IgnoresWork illegalCommand :=
  (ignoresWork_update (g := id) fun _ _ _ => rfl).ite (ignoresWork_raise .badCommand) (fun s => s.st = .fault)
    fun _ _ _ => Iff.rfl

theorem stepCommand_ok {w : BitVec 72} {i : Instr} (rest : List HostEvent) (s : State) (h : decode (.cmd w) = .ok i) :
    stepCommand w rest s = exec i (s.accept w rest) := by
  rw [stepCommand, h]

theorem stepCommand_error {w : BitVec 72} {e : Reject} (rest : List HostEvent) (s : State)
    (h : decode (.cmd w) = .error e) : stepCommand w rest s = illegalCommand (s.accept w rest) := by
  rw [stepCommand, h]

theorem ignoresWork_exec_of_decode {w : BitVec 72} {i : Instr} (h : decode (.cmd w) = .ok i) : IgnoresWork (exec i) := by
  obtain ⟨len, rfl⟩ | ⟨b, rfl⟩ | rfl := isCommand_of_decode h
  · exact ignoresWork_execStart len
  · exact ignoresWork_execData b
  · exact ignoresWork_execLast

/-- The decoder looks at the word alone. -/
theorem ignoresWork_stepCommand (word : BitVec 72) (rest : List HostEvent) : IgnoresWork (stepCommand word rest) := by
  intro s t v w h
  cases hd : decode (.cmd word) with
  | ok i =>
    rw [stepCommand_ok rest _ hd] at h ⊢
    exact ignoresWork_exec_of_decode hd _ t v w h
  | error e =>
    rw [stepCommand_error rest _ hd] at h ⊢
    exact ignoresWork_illegalCommand _ t v w h

theorem step_boundary_ignoresWork {s t : State} (v : Words8) (w : Words64) (hb : s.AtBoundary) (ht : step s = .next t) :
    ∃ v' w', step (s.withWork v w) = .next (t.withWork v' w') := by
  match hh : s.host with
  | [] =>
    cases (step_boundary_nothing hb hh).symm.trans ht
    exact ⟨v, w, step_boundary_nothing (s := s.withWork v w) hb hh⟩
  | .rst :: rest =>
    cases (step_boundary_rst hb hh).symm.trans ht
    exact ⟨_, _, step_boundary_rst (s := s.withWork v w) hb hh⟩
  | .command word :: rest =>
    obtain ⟨v', w', hu⟩ := ignoresWork_stepCommand word rest s t v w ((step_boundary_command hb hh).symm.trans ht)
    exact ⟨v', w', (step_boundary_command (s := s.withWork v w) hb hh).trans hu⟩

end Sys2Proof.Machine

namespace Sys2Proof

/-! ## The obligations -/

open Machine

/-- Settles O26: LDW reads its four bytes; at offset 63 BLK reads the other 63; LAST compresses the incomplete block, whose
bytes PADSEQ does not overwrite first. -/
theorem unwrittenBufferByteFaults : Obligations.UnwrittenBufferByteFaults := by
  refine fun s => ⟨fun t j ht hj h => execLdw_unwritten ht hj h, fun i j hi ho hj h => ?_, fun b j hst hc ho hj h => ?_,
    fun j hst hd hj h => ?_⟩
  · obtain rfl | rfl | rfl | ⟨li, rfl⟩ := hi <;> exact push_unwritten _ ho hj h
  · rw [exec_data, execData_absorb b hst hc, push_unwritten b ho hj h, andThen_fault]
  · rw [exec_last, execLast_absorb hst hd, State.Gap.padseq_stops ⟨rfl, hj, h⟩]

/-- Settles O50: a command ignores V and W, because BLK overwrites both before it reads them, and the other events do not
look at them. -/
theorem staleWorkingRegistersReachNothing : Obligations.StaleWorkingRegistersReachNothing :=
  fun _ _ v w => step_boundary_ignoresWork v w

end Sys2Proof

/-! The invariant of a command boundary (10_state.md R41): reset meets it, every command keeps it, and so a step from a
boundary neither stops nor leaves it. -/

namespace Sys2Proof.Machine

section
variable {s : State}

/-- RST meets the invariant whatever came before. -/
theorem boundary_rst (s : State) (rest : List HostEvent) : (s.rst rest).Boundary where
  quiescent := ⟨rfl, rfl, rfl, rfl⟩
  settled := rfl
  cause := by simp [State.reset]
  buffer := rfl
  bound := Nat.zero_le _
  absorb h := by cases h
  done h := by cases h
  idle _ := ⟨rfl, rfl, rfl, rfl⟩

theorem State.Boundary.atBoundary (hs : s.Boundary) : s.AtBoundary := ⟨hs.quiescent, hs.settled⟩

theorem State.Boundary.cause_none (hs : s.Boundary) (hf : s.st ≠ .fault) : s.cause = .none := hs.cause.2 hf

theorem State.Boundary.accept (hs : s.Boundary) (w : BitVec 72) (rest : List HostEvent) : (s.accept w rest).Boundary where
  quiescent := hs.quiescent
  settled := hs.settled
  cause := hs.cause
  buffer := hs.buffer
  bound := hs.bound
  absorb h := by
    obtain ⟨m, hm⟩ := hs.absorb h
    exact ⟨m, hm.accept w rest⟩
  done h := by
    obtain ⟨m, hm⟩ := hs.done h
    exact ⟨m, hm.st, hm.count, hm.declared, hm.off, hm.nblk, hm.h⟩
  idle := hs.idle

/-- Fault entry keeps the invariant: what it says of FAULT is that a cause is recorded. -/
theorem State.Boundary.enterFault (hs : s.Boundary) {c : Cause} (hc : c ≠ .none) : (s.enterFault c).Boundary where
  quiescent := hs.quiescent
  settled := hs.settled
  cause := by simp [hc]
  buffer := hs.buffer
  bound := hs.bound
  absorb h := by cases h
  done h := by cases h
  idle h := by cases h

/-- In ABSORB the invariant is the open message, with the frame of the boundary. -/
theorem State.Absorbing.boundary {m : List Byte} (hm : s.Absorbing m) (hb : s.AtBoundary) (hc : s.cause = .none)
    (hbuf : s.buf.wf = true) : s.Boundary where
  quiescent := hb.1
  settled := hb.2
  cause := by simp [hc, hm.st]
  buffer := hbuf
  bound := hm.count ▸ hm.bound
  absorb _ := ⟨m, hm⟩
  done h := by cases hm.st.symm.trans h
  idle h := by cases hm.st.symm.trans h

/-- In DONE it is the finished message. -/
theorem State.Finished.boundary {m : List Byte} (hm : s.Finished m) (hb : s.AtBoundary) (hc : s.cause = .none)
    (hbuf : s.buf.wf = true) (hbound : s.cnt.toNat ≤ maxMessageBytes) : s.Boundary where
  quiescent := hb.1
  settled := hb.2
  cause := by simp [hc, hm.st]
  buffer := hbuf
  bound := hbound
  absorb h := by cases hm.st.symm.trans h
  done _ := ⟨m, hm⟩
  idle h := by cases hm.st.symm.trans h

/-- The outcome is a next state at which the invariant holds. -/
def MeetsBoundary (r : Result) : Prop := ∃ t, r = .next t ∧ t.Boundary

/-- The phase check keeps the invariant where it does not run the command's body. -/
theorem State.Boundary.inPhase (hs : s.Boundary) {admits : Status → Bool} {body : State → Result}
    (hbody : s.st ≠ .fault → admits s.st = true → MeetsBoundary (body s)) : MeetsBoundary (inPhase admits s body) := by
  by_cases hf : s.st = .fault
  · exact ⟨s, inPhase_fault hf, hs⟩
  · cases ha : admits s.st with
    | true =>
      rw [inPhase_admitted hf ha]
      exact hbody hf ha
    | false => exact ⟨_, inPhase_refused hf ha, hs.enterFault (by decide)⟩

theorem absorb_of_admitsByte {st : Status} (h : admitsByte st = true) : st = .absorb := by
  cases st with
  | absorb => rfl
  | _ => cases h

theorem State.Boundary.execStart (hs : s.Boundary) (len : DWord) : MeetsBoundary (execStart len s) := by
  refine hs.inPhase fun hf _ => ⟨_, rfl, ?_⟩
  have hm : (s.openMessage Config.initState len).Absorbing [] := ⟨rfl, rfl, Nat.zero_le _, streamed_nil rfl⟩
  exact hm.boundary hs.atBoundary (hs.cause_none hf) hs.buffer

theorem State.Boundary.execData (hs : s.Boundary) (b : Byte) : MeetsBoundary (execData b s) := by
  by_cases hst : s.st = .absorb
  · by_cases hc : s.cnt.toNat = maxMessageBytes
    · exact ⟨_, execData_overflow b hst hc, hs.enterFault (by decide)⟩
    · obtain ⟨m, hm⟩ := hs.absorb hst
      have hlt : m.length < maxMessageBytes := lt_of_le_of_ne hm.bound (hm.count ▸ hc)
      obtain ⟨t, ht, htm, hframe⟩ := execData_extends b hm hlt
      refine ⟨t, ht, htm.boundary (hframe.atBoundary hs.atBoundary) (hframe.cause.trans ?_) (hframe.buffer hs.buffer)⟩
      exact hs.cause_none (by simp [hst])
  · exact hs.inPhase fun _ ha => absurd (absorb_of_admitsByte ha) hst

theorem State.Boundary.execLast (hs : s.Boundary) : MeetsBoundary (execLast s) := by
  by_cases hst : s.st = .absorb
  · by_cases hd : 8 * s.cnt.toNat = s.dlen.toNat
    · obtain ⟨m, hm⟩ := hs.absorb hst
      obtain ⟨t, ht, htm, hframe⟩ := execLast_finishes hm (by rw [← hd, hm.count])
      refine ⟨t, ht, htm.boundary (hframe.atBoundary (atBoundary_padderAt_finish hs.atBoundary)) (hframe.cause.trans ?_)
        (hframe.buffer hs.buffer) (hframe.cnt ▸ hs.bound)⟩
      exact hs.cause_none (by simp [hst])
    · exact ⟨_, execLast_mismatch hst hd, hs.enterFault (by decide)⟩
  · exact hs.inPhase fun _ ha => absurd (absorb_of_admitsByte ha) hst

theorem State.Boundary.illegalCommand (hs : s.Boundary) : MeetsBoundary (illegalCommand s) := by
  by_cases hf : s.st = .fault
  · exact ⟨s, illegalCommand_fault hf, hs⟩
  · exact ⟨_, illegalCommand_raises hf, hs.enterFault (by decide)⟩

theorem State.Boundary.stepCommand (hs : s.Boundary) (w : BitVec 72) (rest : List HostEvent) :
    MeetsBoundary (stepCommand w rest s) := by
  have ha := hs.accept w rest
  cases hd : decode (.cmd w) with
  | error e =>
    rw [stepCommand_error rest s hd]
    exact ha.illegalCommand
  | ok i =>
    rw [stepCommand_ok rest s hd]
    obtain ⟨len, rfl⟩ | ⟨b, rfl⟩ | rfl := isCommand_of_decode hd
    · exact ha.execStart len
    · exact ha.execData b
    · exact ha.execLast

/-- From a boundary every step ends in a next state, a boundary again. -/
theorem State.Boundary.step (hs : s.Boundary) : MeetsBoundary (step s) := by
  match hh : s.host with
  | [] => exact ⟨s, step_boundary_nothing hs.atBoundary hh, hs⟩
  | .rst :: rest => exact ⟨_, step_boundary_rst hs.atBoundary hh, boundary_rst s rest⟩
  | .command w :: rest =>
    rw [step_boundary_command hs.atBoundary hh]
    exact hs.stepCommand w rest

end

end Sys2Proof.Machine

namespace Sys2Proof

/-! ## The obligations -/

open Machine

/-- Settles O41: the reset state is what RST makes. -/
theorem resetMeetsTheBoundaryInvariant : Obligations.ResetMeetsTheBoundaryInvariant := boundary_rst State.reset []

/-- Settles O42: each event of the host keeps the invariant. -/
theorem stepKeepsTheBoundaryInvariant : Obligations.StepKeepsTheBoundaryInvariant := by
  intro s t hs ht
  obtain ⟨u, hu, hub⟩ := hs.step
  cases hu.symm.trans ht
  exact hub

/-- Settles O43: in ABSORB the incomplete block is written, so the PUSHes of DATA and LAST complete. -/
theorem boundaryStepNeverStops : Obligations.BoundaryStepNeverStops := by
  intro s hs
  obtain ⟨u, hu, -⟩ := hs.step
  exact ⟨u, hu⟩

end Sys2Proof

/-! What each command and each step can do: the checks of DATA and LAST (40_padder.md R106, R107), the status (10_state.md
R29), the terminal FAULT (60_exceptions.md R197, R198), and the step inside a sequence (30_encoding.md R76 to R79). -/

namespace Sys2Proof.Machine

/-! ## The three commands and the illegal word, wherever they end in a next state -/

/-- The command did not execute: it was ignored in FAULT, or it recorded a cause and nothing else. -/
def State.Rejects (s t : State) : Prop := (s.st = .fault ∧ t = s) ∨ ∃ c, c ≠ .none ∧ t = s.enterFault c

theorem inPhase_eq_next {admits : Status → Bool} {s t : State} {body : State → Result}
    (h : inPhase admits s body = .next t) : s.Rejects t ∨ (s.st ≠ .fault ∧ admits s.st = true ∧ body s = .next t) := by
  by_cases hf : s.st = .fault
  · cases (inPhase_fault hf).symm.trans h
    exact .inl (.inl ⟨hf, rfl⟩)
  · cases ha : admits s.st with
    | true => exact .inr ⟨hf, rfl, (inPhase_admitted hf ha).symm.trans h⟩
    | false =>
      cases (inPhase_refused hf ha).symm.trans h
      exact .inl (.inr ⟨.badPhase, by decide, rfl⟩)

theorem execStart_eq_next {len : DWord} {s t : State} (h : execStart len s = .next t) :
    s.Rejects t ∨ ((s.st = .idle ∨ s.st = .done) ∧ t = s.openMessage IV len) := by
  obtain hr | ⟨hf, ha, ht⟩ := inPhase_eq_next h
  · exact .inl hr
  · cases ht
    refine .inr ⟨Status.idle_or_done hf fun hst => ?_, rfl⟩
    rw [hst] at ha
    cases ha

theorem execData_eq_next {b : Byte} {s t : State} (h : execData b s = .next t) :
    s.Rejects t ∨ (s.st = .absorb ∧ ∃ u, push b s = .next u ∧ t = u.countByte) := by
  obtain hr | ⟨-, ha, -⟩ := inPhase_eq_next h
  · exact .inl hr
  · have hst := absorb_of_admitsByte ha
    by_cases hc : s.cnt.toNat = maxMessageBytes
    · cases (execData_overflow b hst hc).symm.trans h
      exact .inl (.inr ⟨.lenOverflow, by decide, rfl⟩)
    · obtain ⟨u, hu, ht⟩ := andThen_eq_next.1 ((execData_absorb b hst hc).symm.trans h)
      cases ht
      exact .inr ⟨hst, u, hu, rfl⟩

theorem execLast_eq_next {s t : State} (h : execLast s = .next t) :
    s.Rejects t ∨ (s.st = .absorb ∧ padseq s = .next t) := by
  obtain hr | ⟨-, ha, -⟩ := inPhase_eq_next h
  · exact .inl hr
  · have hst := absorb_of_admitsByte ha
    by_cases hd : 8 * s.cnt.toNat = s.dlen.toNat
    · exact .inr ⟨hst, (execLast_absorb hst hd).symm.trans h⟩
    · cases (execLast_mismatch hst hd).symm.trans h
      exact .inl (.inr ⟨.lenMismatch, by decide, rfl⟩)

theorem illegalCommand_eq_next {s t : State} (h : illegalCommand s = .next t) : s.Rejects t := by
  by_cases hf : s.st = .fault
  · cases (illegalCommand_fault hf).symm.trans h
    exact .inl ⟨hf, rfl⟩
  · cases (illegalCommand_raises hf).symm.trans h
    exact .inr ⟨.badCommand, by decide, rfl⟩

theorem State.Rejects.st {s t : State} (h : s.Rejects t) : t.st = s.st ∨ t.st = .fault := by
  obtain ⟨-, rfl⟩ | ⟨c, -, rfl⟩ := h
  · exact .inl rfl
  · exact .inr rfl

theorem State.Rejects.frame_of_fault {s t : State} (h : s.Rejects t) (hs : s.st ≠ .fault) :
    t.cause ≠ .none ∧ t = { s with st := .fault, cause := t.cause } := by
  obtain ⟨hf, -⟩ | ⟨c, hc, rfl⟩ := h
  · exact absurd hf hs
  · exact ⟨hc, rfl⟩

/-! ## The step inside a sequence, where the micro-operation stops or the code is none -/

theorem step_engine_fault {s : State} {i : Instr} {e : Fault} (h : s.ph ≠ .fill)
    (hd : decode (.useq s.engineWord) = .ok i) (he : exec i s = .fault e) : step s = .fault e := by
  simp [step, due_engine h, stepMicro, hd, he]

theorem step_padder_fault {s : State} {i : Instr} {e : Fault} (h : s.ph = .fill) (ha : s.padderActive = true)
    (hd : decode (.pseq s.padderWord) = .ok i) (he : exec i s = .fault e) : step s = .fault e := by
  simp [step, due_padder h ha, stepMicro, hd, he]

theorem step_engine_refused {s : State} {e : Reject} (h : s.ph ≠ .fill) (hd : decode (.useq s.engineWord) = .error e) :
    step s = .refused .sequencerCodeNeverProduced := by
  simp [step, due_engine h, stepMicro, hd]

theorem step_padder_refused {s : State} {e : Reject} (h : s.ph = .fill) (ha : s.padderActive = true)
    (hd : decode (.pseq s.padderWord) = .error e) : step s = .refused .sequencerCodeNeverProduced := by
  simp [step, due_padder h ha, stepMicro, hd]

theorem padderActive_iff {s : State} : s.padderActive = true ↔ s.busy = true ∨ s.pp ≠ .msg ∨ s.li ≠ 0#3 := by
  simp [State.padderActive, or_assoc]

/-- The engine's codes of R79. -/
theorem decode_engineWord_neverProduced {s : State} (h : s.ph = .code6 ∨ s.ph = .code7 ∨ (s.ph = .loadw ∧ 16 ≤ s.t.toNat) ∨
    (s.ph = .expand ∧ s.t.toNat < 16) ∨ (s.ph = .loadv ∧ s.t ≠ 0#6) ∨ (s.ph = .feed ∧ s.t ≠ 0#6)) :
    decode (.useq s.engineWord) = .error .neverProduced := by
  obtain h | h | ⟨h, ht⟩ | ⟨h, ht⟩ | ⟨h, ht⟩ | ⟨h, ht⟩ := h
  · simp [decode, decodeEngine, State.engineWord, BlockPhase.code, h]
  · simp [decode, decodeEngine, State.engineWord, BlockPhase.code, h]
  · simp [decode, decodeEngine, State.engineWord, BlockPhase.code, h, ht]
  · simp [decode, decodeEngine, State.engineWord, BlockPhase.code, h, ht]
  · simp [decode, decodeEngine, State.engineWord, BlockPhase.code, h, ht]
  · simp [decode, decodeEngine, State.engineWord, BlockPhase.code, h, ht]

theorem PadPhase.code_eq_length {p : PadPhase} : p.code = 3#2 ↔ p = .length := by
  cases p <;> decide

/-- The padder's codes of R79. -/
theorem decode_padderWord_neverProduced {s : State} (hpp : s.pp ≠ .length) (hli : s.li ≠ 0#3) :
    decode (.pseq s.padderWord) = .error .neverProduced := by
  simp [decode, decodePadder, State.padderWord, PadPhase.code_eq_length, hpp, hli]

end Sys2Proof.Machine

namespace Sys2Proof

/-! ## The obligations -/

open Machine

/-- Settles O6: at a boundary the command is due, and the step decodes it. -/
theorem stepRunsTheDecodedCommand : Obligations.StepRunsTheDecodedCommand := fun _ _ _ _ hb hh hd =>
  step_boundary_decoded hb hh hd

/-- Settles O7: the code that is due selects the micro-operation, and the advance follows it. -/
theorem stepRunsTheSelectedMicroOperation : Obligations.StepRunsTheSelectedMicroOperation := fun _ _ =>
  ⟨fun hp hd => ⟨fun _ hu => step_engine hp hd hu, fun _ he => step_engine_fault hp hd he⟩,
    fun hp ha hd => ⟨fun _ hu => step_padder hp (padderActive_iff.2 ha) hd hu,
      fun _ he => step_padder_fault hp (padderActive_iff.2 ha) hd he⟩⟩

/-- Settles O9: the decoder rejects each code of the list, the engine's with PH not FILL and the padder's with LI not 0. -/
theorem neverProducedCodesAreRefused : Obligations.NeverProducedCodesAreRefused := by
  refine fun s => ⟨fun h => step_engine_refused (fun hp => ?_) (decode_engineWord_neverProduced h), fun hp hpp hli => ?_⟩
  · simp [hp] at h
  · exact step_padder_refused hp (padderActive_iff.2 (.inr (.inr hli))) (decode_padderWord_neverProduced hpp hli)

/-- Settles O11: at a boundary with an empty list the step is idle. -/
theorem nothingHappensWithoutTheHost : Obligations.NothingHappensWithoutTheHost := fun _ => step_boundary_nothing

/-- Settles O16: outside FAULT a command that ends in FAULT was rejected, because one that executes ends in ABSORB or DONE. -/
theorem faultingCommandChangesOnlyStatus : Obligations.FaultingCommandChangesOnlyStatus := by
  rintro s t i (⟨len, rfl⟩ | ⟨b, rfl⟩ | rfl) hs h ht
  · obtain hr | ⟨-, rfl⟩ := execStart_eq_next h
    · exact hr.frame_of_fault hs
    · cases ht
  · obtain hr | ⟨hst, u, hu, rfl⟩ := execData_eq_next h
    · exact hr.frame_of_fault hs
    · cases ((push_frame hu).st.trans hst).symm.trans ht
  · obtain hr | ⟨-, hu⟩ := execLast_eq_next h
    · exact hr.frame_of_fault hs
    · cases (padseq_frame hu).st.symm.trans ht

/-- Settles O17: in FAULT every word is only accepted, and of the other events RST alone changes the state. -/
theorem faultIsTerminalUntilReset : Obligations.FaultIsTerminalUntilReset := by
  refine fun s hb hf => ⟨fun w rest hh => step_boundary_command_fault hb hh hf, fun t ht => ?_, ?_⟩
  · by_cases hst : t.st = .fault
    · exact .inl hst
    · exact .inr (step_boundary_leaves_fault hb hf ht hst)
  · simp [State.portDigest, hf]

/-- Settles O18: the phase check comes before the length check. -/
theorem lastChecksPhaseAndLength : Obligations.LastChecksPhaseAndLength := fun _ =>
  ⟨execLast_fault, execLast_outOfPhase, execLast_mismatch⟩

/-- Settles O19: the phase check comes before the overflow check. -/
theorem dataChecksPhaseAndOverflow : Obligations.DataChecksPhaseAndOverflow := fun _ b =>
  ⟨execData_fault b, execData_outOfPhase b, execData_overflow b⟩

/-- Settles O29: LDW and EXP check their index first. -/
theorem indexOutOfRangeIsRefused : Obligations.IndexOutOfRangeIsRefused := fun _ _ =>
  ⟨fun ht => if_neg (Nat.not_lt.2 ht), fun ht => if_neg (Nat.not_le.2 ht)⟩

/-- Settles O51: the codes of ST and CAUSE are injective. -/
theorem statusPortsShowTheirCodes : Obligations.StatusPortsShowTheirCodes := by
  intro s
  have hst : ∀ x : Status, s.portSt = x.code ↔ s.st = x := fun x => Status.code_injective.eq_iff
  have hcause : ∀ x : Cause, s.portCause = x.code ↔ s.cause = x := fun x => Cause.code_injective.eq_iff
  have hmax : s.cause.code.toNat ≤ 4 := by cases s.cause <;> decide
  exact ⟨hst .idle, hst .absorb, hst .done, hst .fault, hcause .none, hcause .lenMismatch, hcause .lenOverflow,
    hcause .badCommand, hcause .badPhase, hmax, rfl⟩

/-- Settles O21: a word that executes is START, which opens a message, DATA, which keeps ST, or LAST, which ends in DONE. -/
theorem statusMovesOnlyAsDescribed : Obligations.StatusMovesOnlyAsDescribed := by
  intro s t w rest hb hh h
  have hrejects : ∀ {x : State}, (s.accept w rest).Rejects x → x.st = s.st ∨ x.st = .fault := State.Rejects.st
  rw [step_boundary_command hb hh] at h
  cases hd : decode (.cmd w) with
  | error e =>
    rw [stepCommand_error rest s hd] at h
    exact (hrejects (illegalCommand_eq_next h)).imp_right .inl
  | ok i =>
    rw [stepCommand_ok rest s hd] at h
    obtain ⟨-, hw⟩ := encodedBy_of_decode hd
    obtain ⟨len, rfl⟩ | ⟨b, rfl⟩ | rfl := isCommand_of_decode hd
    · obtain hr | ⟨hst, rfl⟩ := execStart_eq_next h
      · exact (hrejects hr).imp_right .inl
      · cases hw
        exact .inr (.inr (.inl ⟨opcodeOf_commandWord _ _, hst, rfl⟩))
    · obtain hr | ⟨hst, u, hu, rfl⟩ := execData_eq_next h
      · exact (hrejects hr).imp_right .inl
      · exact .inl (push_frame hu).st
    · obtain hr | ⟨hst, hu⟩ := execLast_eq_next h
      · exact (hrejects hr).imp_right .inl
      · cases hw
        exact .inr (.inr (.inr ⟨rfl, hst, (padseq_frame hu).st⟩))

end Sys2Proof

/-! What each instruction leaves unchanged (10_state.md sections 3 to 6), and what every step keeps: the canonical buffer
(20_memory.md R50) and a legal sequencer (30_encoding.md R79). -/

namespace Sys2Proof.Machine

/-! ## What each class of instructions can change -/

theorem exec_isPush {i : Instr} (hi : i.IsPush) (s : State) : ∃ x, exec i s = push x s := by
  obtain rfl | rfl | rfl | ⟨li, rfl⟩ := hi
  · exact ⟨_, exec_pushm s⟩
  · exact ⟨_, exec_push80 s⟩
  · exact ⟨_, exec_push00 s⟩
  · exact ⟨_, exec_pushl li s⟩

/-- A micro-operation of the engine writes H, V and W at most, and H only in ADDH. -/
theorem exec_isEngine_eq_next {i : Instr} (hi : i.IsEngine) {s u : State} (h : exec i s = .next u) :
    (∃ x v w, u = { s with h := x, v := v, w := w }) ∧ (i ≠ .addh → u.h = s.h) := by
  obtain ⟨t, rfl⟩ | ⟨t, rfl⟩ | rfl | ⟨t, rfl⟩ | rfl := hi
  · obtain ⟨-, x, rfl⟩ := execLdw_eq_next h
    exact ⟨⟨_, _, _, rfl⟩, fun _ => rfl⟩
  · obtain ⟨-, rfl⟩ := execExp_eq_next h
    exact ⟨⟨_, _, _, rfl⟩, fun _ => rfl⟩
  · cases h
    exact ⟨⟨_, _, _, rfl⟩, fun _ => rfl⟩
  · cases h
    exact ⟨⟨_, _, _, rfl⟩, fun _ => rfl⟩
  · cases h
    exact ⟨⟨_, _, _, rfl⟩, fun h => absurd rfl h⟩

theorem push_keeps_below {x : Byte} {s u : State} (h : push x s = .next u) (ho : s.off ≠ 63#6) :
    u.h = s.h ∧ u.nblk = s.nblk := by
  cases (push_partial ho).symm.trans h
  exact ⟨rfl, rfl⟩

theorem State.Rejects.frame {s t : State} (h : s.Rejects t) : ∃ st c, t = { s with st := st, cause := c } := by
  obtain ⟨-, rfl⟩ | ⟨c, -, rfl⟩ := h
  · exact ⟨_, _, rfl⟩
  · exact ⟨_, _, rfl⟩

theorem execStart_keeps {len : DWord} {s t : State} (h : execStart len s = .next t) :
    t.buf = s.buf ∧ t.cmd = s.cmd ∧ t.busy = s.busy ∧ t.host = s.host ∧ t.pp = s.pp ∧ t.li = s.li ∧ t.ph = s.ph ∧ t.t = s.t := by
  obtain hr | ⟨-, rfl⟩ := execStart_eq_next h
  · obtain ⟨st, c, rfl⟩ := hr.frame
    simp
  · simp

theorem execData_keeps {b : Byte} {s t : State} (h : execData b s = .next t) :
    t.dlen = s.dlen ∧ t.cmd = s.cmd ∧ t.busy = s.busy ∧ t.host = s.host ∧
      (s.off ≠ 63#6 → t.h = s.h ∧ t.nblk = s.nblk) := by
  obtain hr | ⟨-, u, hu, rfl⟩ := execData_eq_next h
  · obtain ⟨st, c, rfl⟩ := hr.frame
    simp
  · have hframe := push_frame hu
    exact ⟨hframe.dlen, hframe.cmd, hframe.busy, hframe.host, push_keeps_below (u := u) hu⟩

theorem execLast_keeps {s t : State} (h : execLast s = .next t) :
    t.dlen = s.dlen ∧ t.cnt = s.cnt ∧ t.cmd = s.cmd ∧ t.busy = s.busy ∧ t.host = s.host := by
  obtain hr | ⟨-, hu⟩ := execLast_eq_next h
  · obtain ⟨st, c, rfl⟩ := hr.frame
    simp
  · have hframe := padseq_frame hu
    exact ⟨hframe.dlen, hframe.cnt, hframe.cmd, hframe.busy, hframe.host⟩

/-! ## The canonical buffer -/

theorem exec_wf {i : Instr} {s t : State} (hs : s.buf.wf = true) (h : exec i s = .next t) : t.buf.wf = true := by
  obtain (⟨len, rfl⟩ | ⟨b, rfl⟩ | rfl) | hi | hi := i.class_of
  · rw [(execStart_keeps h).1]
    exact hs
  · obtain hr | ⟨-, u, hu, rfl⟩ := execData_eq_next h
    · obtain ⟨st, c, rfl⟩ := hr.frame
      exact hs
    · rw [State.countByte_buf]
      exact push_wf hs hu
  · obtain hr | ⟨-, hu⟩ := execLast_eq_next h
    · obtain ⟨st, c, rfl⟩ := hr.frame
      exact hs
    · exact (padseq_frame hu).buffer hs
  · obtain ⟨x, hx⟩ := exec_isPush hi s
    exact push_wf hs (hx.symm.trans h)
  · obtain ⟨⟨x, v, w, rfl⟩, -⟩ := exec_isEngine_eq_next hi h
    exact hs

@[simp] theorem advanceEngine_buf (s : State) : (advanceEngine s).buf = s.buf := by
  unfold advanceEngine
  split <;> simp [apply_ite State.buf]

@[simp] theorem enterZeros_buf (s : State) : (enterZeros s).buf = s.buf := by
  simp [enterZeros, apply_ite State.buf]

@[simp] theorem advancePadder_buf (s : State) : (advancePadder s).buf = s.buf := by
  unfold advancePadder
  split <;> simp [apply_ite State.buf]

theorem step_wf {s t : State} (hs : s.buf.wf = true) (h : step s = .next t) : t.buf.wf = true := by
  obtain rfl | ⟨rest, -, rfl⟩ | ⟨w, rest, i, -, -, hi⟩ | ⟨w, rest, -, hi⟩ | ⟨i, u, -, -, hi, rfl⟩ | ⟨i, u, -, -, -, hi, rfl⟩ :=
    step_eq_next h
  · exact hs
  · rfl
  · exact exec_wf (s := s.accept w rest) hs hi
  · obtain ⟨st, c, rfl⟩ := (illegalCommand_eq_next hi).frame
    exact hs
  · rw [advanceEngine_buf]
    exact exec_wf hs hi
  · rw [advancePadder_buf]
    exact exec_wf hs hi

/-! ## A legal sequencer -/

section
variable {P : State → Prop} (hpush : ∀ {x s u}, P s → push x s = .next u → P u)
  (hpad : ∀ {s pp li}, P s → P (s.padderAt pp li))

include hpush in
theorem zerosLoop_keeps {fuel : Nat} {s t : State} (hs : P s) (h : zerosLoop fuel s = .next t) : P t := by
  induction fuel generalizing s with
  | zero =>
    cases h
    exact hs
  | succ fuel ih =>
    by_cases ho : s.off = 56#6
    · cases (zerosLoop_end _ ho).symm.trans h
      exact hs
    · obtain ⟨u, hu, ht⟩ := andThen_eq_next.1 ((zerosLoop_turn fuel ho).symm.trans h)
      exact ih (hpush hs hu) ht

include hpush hpad

theorem lengthLoop_keeps {n : Nat} {s t : State} (hs : P s) (h : lengthLoop n s = .next t) : P t := by
  induction n generalizing s with
  | zero =>
    cases h
    exact hs
  | succ n ih =>
    obtain ⟨u, hu, ht⟩ := andThen_eq_next.1 h
    exact ih (hpad (hpush hs hu)) ht

/-- What every PUSH, every move of the padder's registers and the end of LAST keep, PADSEQ keeps. -/
theorem padseq_keeps (hfinish : ∀ {s}, P s → P s.finish) {s t : State} (hs : P s) (h : padseq s = .next t) : P t := by
  obtain ⟨u, hu, h⟩ := andThen_eq_next.1 h
  obtain ⟨x, hx, h⟩ := andThen_eq_next.1 h
  obtain ⟨y, hy, h⟩ := andThen_eq_next.1 h
  cases h
  exact hfinish (hpad (lengthLoop_keeps hpush hpad (hpad (zerosLoop_keeps hpush (hpad (hpush (hpad hs) hu)) hx)) hy))

end

/-- The indexes at which a phase has a micro-operation, or none is due (30_encoding.md R77, R79). -/
def BlockPhase.Admits : BlockPhase → BitVec 6 → Prop
  | .fill, _ => True
  | .loadw, t => t.toNat < 16
  | .expand, t => 16 ≤ t.toNat
  | .loadv, t => t = 0#6
  | .rounds, _ => True
  | .feed, t => t = 0#6
  | .code6, _ => False
  | .code7, _ => False

theorem sequencerLegal_iff {s : State} :
    s.SequencerLegal ↔ s.ph.Admits s.t ∧ (s.pp ≠ .length → s.li = 0#3) := by
  constructor
  · rintro ⟨h6, h7, hloadw, hexpand, hloadv, hfeed, hpad⟩
    refine ⟨?_, hpad⟩
    cases hp : s.ph with
    | fill => trivial
    | loadw => exact hloadw hp
    | expand => exact hexpand hp
    | loadv => exact hloadv hp
    | rounds => trivial
    | feed => exact hfeed hp
    | code6 => exact h6 hp
    | code7 => exact h7 hp
  · rintro ⟨hengine, hpad⟩
    refine ⟨?_, ?_, ?_, ?_, ?_, ?_, hpad⟩ <;> intro hp <;> rw [hp] at hengine <;> exact hengine

theorem push_admits {x : Byte} {s u : State} (hs : s.ph.Admits s.t) (h : push x s = .next u) : u.ph.Admits u.t := by
  by_cases ho : s.off = 63#6
  · obtain ⟨-, -, -, -, -, -, -, -, -, -, -, -, hend⟩ := push_eq_next h
    rw [(hend ho).2.1]
    trivial
  · cases (push_partial ho).symm.trans h
    exact hs

theorem padseq_admits {s t : State} (hs : s.ph.Admits s.t) (h : padseq s = .next t) : t.ph.Admits t.t :=
  padseq_keeps (P := fun s => s.ph.Admits s.t) push_admits id id hs h

theorem push_legal {x : Byte} {s u : State} (hs : s.SequencerLegal) (h : push x s = .next u) : u.SequencerLegal := by
  obtain ⟨hengine, hpad⟩ := sequencerLegal_iff.1 hs
  have hframe := push_frame h
  rw [sequencerLegal_iff, hframe.pp, hframe.li]
  exact ⟨push_admits hengine h, hpad⟩

theorem State.Rejects.legal {s t : State} (h : s.Rejects t) (hs : s.SequencerLegal) : t.SequencerLegal := by
  obtain ⟨st, c, rfl⟩ := h.frame
  exact sequencerLegal_iff.2 (sequencerLegal_iff (s := s).1 hs)

theorem exec_legal {i : Instr} {s t : State} (hs : s.SequencerLegal) (h : exec i s = .next t) : t.SequencerLegal := by
  obtain ⟨hengine, hpad⟩ := sequencerLegal_iff.1 hs
  obtain (⟨len, rfl⟩ | ⟨b, rfl⟩ | rfl) | hi | hi := i.class_of
  · obtain ⟨-, -, -, -, hpp, hli, hph, ht⟩ := execStart_keeps h
    rw [sequencerLegal_iff, hpp, hli, hph, ht]
    exact ⟨hengine, hpad⟩
  · obtain hr | ⟨-, u, hu, rfl⟩ := execData_eq_next h
    · exact hr.legal hs
    · exact sequencerLegal_iff.2 (sequencerLegal_iff (s := u).1 (push_legal hs hu))
  · obtain hr | ⟨-, hu⟩ := execLast_eq_next h
    · exact hr.legal hs
    · exact sequencerLegal_iff.2 ⟨padseq_admits hengine hu, fun _ => (padseq_frame hu).li⟩
  · obtain ⟨x, hx⟩ := exec_isPush hi s
    exact push_legal hs (hx.symm.trans h)
  · obtain ⟨⟨x, v, w, rfl⟩, -⟩ := exec_isEngine_eq_next hi h
    exact sequencerLegal_iff.2 ⟨hengine, hpad⟩

theorem advanceEngine_legal {s : State} (hs : s.SequencerLegal) : (advanceEngine s).SequencerLegal := by
  obtain ⟨hengine, hpad⟩ := sequencerLegal_iff.1 hs
  have hat : ∀ p x, p.Admits x → (s.engineAt p x).SequencerLegal := fun _ _ hx => sequencerLegal_iff.2 ⟨hx, hpad⟩
  cases hp : s.ph with
  | fill =>
    rw [advanceEngine, hp]
    exact hs
  | loadw =>
    rw [hp] at hengine
    have hlt : s.t.toNat < 16 := hengine
    by_cases ht : s.t = 15#6
    · rw [advanceEngine_loadw_last hp ht]
      exact hat _ _ (Nat.le_refl 16)
    · rw [advanceEngine_loadw_next hp ht]
      exact hat .loadw _ (show (s.t + 1#6).toNat < 16 by bv_omega)
  | expand =>
    rw [hp] at hengine
    have hle : 16 ≤ s.t.toNat := hengine
    by_cases ht : s.t = 63#6
    · rw [advanceEngine_expand_last hp ht]
      exact hat .loadv _ rfl
    · rw [advanceEngine_expand_next hp ht]
      exact hat .expand _ (show 16 ≤ (s.t + 1#6).toNat by bv_omega)
  | loadv =>
    rw [advanceEngine_loadv hp]
    exact hat _ _ trivial
  | rounds =>
    by_cases ht : s.t = 63#6
    · rw [advanceEngine_rounds_last hp ht]
      exact hat .feed _ rfl
    · rw [advanceEngine_rounds_next hp ht]
      exact hat _ _ trivial
  | feed =>
    rw [advanceEngine_feed hp]
    exact sequencerLegal_iff.2 ⟨trivial, hpad⟩
  | code6 => exact absurd hp hs.ph6
  | code7 => exact absurd hp hs.ph7

theorem enterZeros_legal {s : State} (hs : s.SequencerLegal) : (enterZeros s).SequencerLegal := by
  obtain ⟨hengine, -⟩ := sequencerLegal_iff.1 hs
  by_cases ho : s.off = 56#6
  · rw [enterZeros_last ho]
    exact sequencerLegal_iff.2 ⟨hengine, fun _ => rfl⟩
  · rw [enterZeros_next ho]
    exact sequencerLegal_iff.2 ⟨hengine, fun _ => rfl⟩

theorem advancePadder_legal {s : State} (hs : s.SequencerLegal) : (advancePadder s).SequencerLegal := by
  obtain ⟨hengine, hpad⟩ := sequencerLegal_iff.1 hs
  cases hp : s.pp with
  | msg =>
    rw [advancePadder_msg hp]
    exact sequencerLegal_iff.2 ⟨hengine, hpad⟩
  | mark =>
    rw [advancePadder_mark hp]
    exact enterZeros_legal hs
  | zeros =>
    rw [advancePadder_zeros hp]
    exact enterZeros_legal hs
  | length =>
    by_cases hl : s.li = 7#3
    · rw [advancePadder_length_last hp hl]
      exact sequencerLegal_iff.2 ⟨hengine, fun _ => rfl⟩
    · rw [advancePadder_length_next hp hl]
      exact sequencerLegal_iff.2 ⟨hengine, fun hne => absurd rfl hne⟩

theorem step_legal {s t : State} (hs : s.SequencerLegal) (h : step s = .next t) : t.SequencerLegal := by
  have haccept : ∀ w rest, (s.accept w rest).SequencerLegal := fun _ _ => sequencerLegal_iff.2 (sequencerLegal_iff (s := s).1 hs)
  obtain rfl | ⟨rest, -, rfl⟩ | ⟨w, rest, i, -, -, hi⟩ | ⟨w, rest, -, hi⟩ | ⟨i, u, -, -, hi, rfl⟩ | ⟨i, u, -, -, -, hi, rfl⟩ :=
    step_eq_next h
  · exact hs
  · exact sequencerLegal_iff.2 ⟨trivial, fun _ => rfl⟩
  · exact exec_legal (haccept w rest) hi
  · exact (illegalCommand_eq_next hi).legal (haccept w rest)
  · exact advanceEngine_legal (exec_legal hs hi)
  · exact advancePadder_legal (exec_legal hs hi)

end Sys2Proof.Machine

namespace Sys2Proof

/-! ## The obligations -/

open Machine

/-- Settles O22: a PUSH below offset 63 keeps H, and of the engine's micro-operations ADDH alone writes it. -/
theorem digestStateHasNoOtherWriter : Obligations.DigestStateHasNoOtherWriter := by
  intro s t i h hne
  have hoff : (s.off ≠ 63#6 → t.h = s.h) → s.off = 63#6 := fun hkeeps => by_contra fun ho => hne (hkeeps ho)
  obtain (hi | ⟨b, rfl⟩ | rfl) | hi | hi := i.class_of
  · exact .inl hi
  · obtain ⟨-, -, -, -, hbelow⟩ := execData_keeps h
    exact .inr (.inr (.inr ⟨hoff fun ho => (hbelow ho).1, .inl ⟨b, rfl⟩⟩))
  · exact .inr (.inr (.inl rfl))
  · obtain ⟨x, hx⟩ := exec_isPush hi s
    exact .inr (.inr (.inr ⟨hoff fun ho => (push_keeps_below (hx.symm.trans h) ho).1, .inr hi⟩))
  · obtain ⟨-, hkeeps⟩ := exec_isEngine_eq_next hi h
    exact .inr (.inl (by_contra fun ha => hne (hkeeps ha)))

/-- Settles O23: the registers that each class of instructions leaves. -/
theorem controlRegistersHaveNoOtherWriter : Obligations.ControlRegistersHaveNoOtherWriter := by
  intro s t i h
  have hoff : (s.off ≠ 63#6 → t.nblk = s.nblk) → t.nblk ≠ s.nblk → s.off = 63#6 :=
    fun hkeeps hne => by_contra fun ho => hne (hkeeps ho)
  obtain (⟨len, rfl⟩ | ⟨b, rfl⟩ | rfl) | hi | hi := i.class_of
  · obtain ⟨hbuf, hcmd, hbusy, hhost, -⟩ := execStart_keeps h
    exact ⟨fun _ => ⟨len, rfl⟩, fun _ => .inl ⟨len, rfl⟩, fun _ => .inl ⟨len, rfl⟩, fun _ => .inl ⟨len, rfl⟩,
      fun hne => absurd hbuf hne, fun _ => .inl ⟨len, rfl⟩, hcmd, hbusy, hhost⟩
  · obtain ⟨hdlen, hcmd, hbusy, hhost, hbelow⟩ := execData_keeps h
    exact ⟨fun hne => absurd hdlen hne, fun _ => .inr ⟨b, rfl⟩,
      fun hne => .inr (.inr ⟨hoff (fun ho => (hbelow ho).2) hne, .inl ⟨b, rfl⟩⟩), fun _ => .inr (.inl ⟨b, rfl⟩),
      fun _ => .inl ⟨b, rfl⟩, fun _ => .inr (.inl ⟨b, rfl⟩), hcmd, hbusy, hhost⟩
  · obtain ⟨hdlen, hcnt, hcmd, hbusy, hhost⟩ := execLast_keeps h
    exact ⟨fun hne => absurd hdlen hne, fun hne => absurd hcnt hne, fun _ => .inr (.inl rfl), fun _ => .inr (.inr rfl),
      fun _ => .inr (.inl rfl), fun _ => .inr (.inr (.inl rfl)), hcmd, hbusy, hhost⟩
  · obtain ⟨x, hx⟩ := exec_isPush hi s
    have hu := hx.symm.trans h
    have hframe := push_frame hu
    exact ⟨fun hne => absurd hframe.dlen hne, fun hne => absurd hframe.cnt hne,
      fun hne => .inr (.inr ⟨hoff (fun ho => (push_keeps_below hu ho).2) hne, .inr hi⟩),
      fun hne => absurd ⟨hframe.st, hframe.cause⟩ (not_and_or.2 hne),
      fun _ => .inr (.inr hi), fun _ => .inr (.inr (.inr hi)), hframe.cmd, hframe.busy, hframe.host⟩
  · obtain ⟨⟨x, v, w, rfl⟩, -⟩ := exec_isEngine_eq_next hi h
    simp

/-- Settles O44: a PUSH writes inside the buffer, RST empties it, and nothing else touches it. -/
theorem stepKeepsTheBufferCanonical : Obligations.StepKeepsTheBufferCanonical := fun _ _ => step_wf

/-- Settles O45: the phases of the engine admit the index that the advance gives them, and the padder's index moves in LENGTH
alone. -/
theorem stepKeepsTheSequencerLegal : Obligations.StepKeepsTheSequencerLegal := fun _ _ => step_legal

end Sys2Proof
